-- ==== Sys2Proof/Word.lean ====
section
/-! DEFINITION. The two word types of the block: a command or register word (30_encoding.md R60, 10_state.md R25)
and one byte of a frame (20_memory.md R40). -/

namespace Sys2Proof

/-- A command word, or the value of one of the three registers: 32 bits. -/
abbrev Word := BitVec 32

/-- One byte of a frame, or the accumulator: 8 bits, unsigned (00_scope.md R13). -/
abbrev Byte := BitVec 8

end Sys2Proof
end

