-- ==== Sys2Proof/Syntax.lean ====
section
/-! DEFINITION. The four commands, one constructor per row of spec/opcode_table.json. Operands are the unsigned numbers
of 30_encoding.md R64; that they fit their fields is `Instr.wellFormed`. -/

namespace Sys2Proof

/-- A command of the block (00_scope.md R2, 30_encoding.md R65). -/
inductive Instr where
  /-- `SETPX x, y, s`: write the state `s` to logical pixel `(x, y)` (40_pixel_buffer.md R84). -/
  | setpx (x y : Nat) (st : Bool)
  /-- `CLEAR`: write 0 to every cell (40_pixel_buffer.md R85). -/
  | clear
  /-- `SEND`: build one frame and emit it (41_packet_codec.md R109). -/
  | send
  /-- `RDBIT idx`: read the cell of raw index `idx` into `RDATA` (40_pixel_buffer.md R86). -/
  | rdbit (idx : Nat)
deriving DecidableEq, Repr

end Sys2Proof
end

