-- ==== Sys2Proof/WellFormed.lean ====
section
/-! DEFINITION. When a command can be written as a word: each operand fits its field (30_encoding.md R61, R63, R64).
Nothing is checked against the configuration here: the block does that at execution (R69). -/

namespace Sys2Proof

/-- The operands fit their fields: x in 12 bits, y in 8, s in 1 (by its type), idx in 17 (30_encoding.md R64, R69). -/
def Instr.wellFormed : Instr → Bool
  | .setpx x y _ => decide (x ≤ 4095) && decide (y ≤ 255)
  | .clear => true
  | .send => true
  | .rdbit idx => decide (idx ≤ 131071)

end Sys2Proof
end

