-- ==== Sys2Proof/Decode.lean ====
section
/-! DEFINITION. Decoding a command word and encoding a command (30_encoding.md R60 to R67, R71). The decoder selects by
the OP field and checks each format's reserved bits; the encoder writes the bit patterns of spec/opcode_table.json. -/

namespace Sys2Proof

/-- Why a word is ILLEGAL (30_encoding.md R67). Both raise the same fault, ILLEGAL_CMD: the two names are the model's
(assumption log entry 19). -/
inductive IllegalWord where
  /-- `OP` is 0 or 5 to 15. -/
  | undefinedOp
  /-- `OP` is defined and a reserved bit of its format is set. -/
  | reservedBitSet
deriving DecidableEq, Repr

/-- `OP = word[31:28]` (30_encoding.md R60). -/
def wordOp (w : Word) : BitVec 4 := w.extractLsb' 28 4

/-- `S = word[27]` (30_encoding.md R61). -/
def wordS (w : Word) : Bool := w.getLsbD 27

/-- Format P's reserved bits, `word[26:20]` (30_encoding.md R61). -/
def wordReservedP (w : Word) : BitVec 7 := w.extractLsb' 20 7

/-- `X = word[19:8]` (30_encoding.md R61). -/
def wordX (w : Word) : BitVec 12 := w.extractLsb' 8 12

/-- `Y = word[7:0]` (30_encoding.md R61). -/
def wordY (w : Word) : BitVec 8 := w.extractLsb' 0 8

/-- Format Z's reserved bits, `word[27:0]` (30_encoding.md R62). -/
def wordReservedZ (w : Word) : BitVec 28 := w.extractLsb' 0 28

/-- Format I's reserved bits, `word[27:17]` (30_encoding.md R63). -/
def wordReservedI (w : Word) : BitVec 11 := w.extractLsb' 17 11

/-- `IDX = word[16:0]` (30_encoding.md R63). -/
def wordIdx (w : Word) : BitVec 17 := w.extractLsb' 0 17

/-- Format P (30_encoding.md R61, R64). -/
def decodeSetpx (w : Word) : Except IllegalWord Instr :=
  if wordReservedP w = 0 then .ok (.setpx (wordX w).toNat (wordY w).toNat (wordS w))
  else .error .reservedBitSet

/-- Format Z, OP 2 (30_encoding.md R62). -/
def decodeClear (w : Word) : Except IllegalWord Instr :=
  if wordReservedZ w = 0 then .ok .clear else .error .reservedBitSet

/-- Format Z, OP 3 (30_encoding.md R62). -/
def decodeSend (w : Word) : Except IllegalWord Instr :=
  if wordReservedZ w = 0 then .ok .send else .error .reservedBitSet

/-- Format I (30_encoding.md R63, R64). -/
def decodeRdbit (w : Word) : Except IllegalWord Instr :=
  if wordReservedI w = 0 then .ok (.rdbit (wordIdx w).toNat) else .error .reservedBitSet

/-- Decoding, total on every 32-bit word (30_encoding.md R66); an ILLEGAL word is rejected by name. -/
def decode (w : Word) : Except IllegalWord Instr :=
  if wordOp w = 0x1#4 then decodeSetpx w
  else if wordOp w = 0x2#4 then decodeClear w
  else if wordOp w = 0x3#4 then decodeSend w
  else if wordOp w = 0x4#4 then decodeRdbit w
  else .error .undefinedOp

/-- The word of a command, by the bit patterns of spec/opcode_table.json (30_encoding.md R71 is the same in OR form).
An operand that does not fit its field loses its high bits; the assembler refuses such a command (R69). -/
def encode : Instr → Word
  | .setpx x y st => 0x1#4 ++ BitVec.ofBool st ++ 0#7 ++ BitVec.ofNat 12 x ++ BitVec.ofNat 8 y
  | .clear => 0x2#4 ++ 0#28
  | .send => 0x3#4 ++ 0#28
  | .rdbit idx => 0x4#4 ++ 0#11 ++ BitVec.ofNat 17 idx

/-- The word whose bits 31:0 are the low `nbits` bits of `w`, the bits above being 0: a command is ONE 32-bit transaction
(30_encoding.md R60), so the table's numbering of bits is the word's own and no byte order enters. -/
def tableWord (nbits w : Nat) : Word := BitVec.ofNat 32 (w % 2 ^ nbits)

/-- What the decoder reads from the opcode table's word `w` of `nbits` bits; no command is longer than 32 bits. -/
def decodeTableWord (nbits w : Nat) : Option Instr :=
  if nbits ≤ 32 then
    match decode (tableWord nbits w) with
    | .ok i => some i
    | .error _ => none
  else none

end Sys2Proof
end

