-- ==== Sys2Proof/Config.lean ====
section
/-! DEFINITION. The build-time parameters of the block (00_scope.md R6 to R11) and the free values the spec leaves
open at reset. A configuration carries the proof that it is legal, so an illegal one cannot be built (R9). -/

namespace Sys2Proof

/-- The order of the eight cells inside a packed byte (00_scope.md R10, 20_memory.md R44). -/
inductive PackOrder where
  /-- The lowest-indexed cell of a group is bit 7 of its byte. -/
  | msbFirst
  /-- The lowest-indexed cell of a group is bit 0 of its byte. -/
  | lsbFirst
deriving DecidableEq, Repr

/-- The row counts for which the row fold is in range and injective (00_scope.md R9, 90_conflicts.md C3). -/
def legalRows : List Nat := [1, 2, 7, 8, 9, 16, 17, 18]

/-- The reach of the 12-bit X field (00_scope.md R9). -/
def maxColumns : Nat := 4096

/-- Configuration legality (00_scope.md R9). -/
abbrev LegalSize (rows columns : Nat) : Prop :=
  rows ∈ legalRows ∧ 1 ≤ columns ∧ columns ≤ maxColumns

/-- `ROWS`, `COLUMNS`, `ADDRESS` and `PACK_ORDER`: fixed when the block is built, changed by no command and by no
reset (10_state.md R34). The last field is the legality check of 00_scope.md R9: "A model refuses to instantiate any
other configuration." -/
structure Config where
  /-- `ROWS`, the number of logical rows and the column stride (R6). -/
  rows : Nat
  /-- `COLUMNS`, the number of logical columns (R7). -/
  columns : Nat
  /-- `ADDRESS`, any natural number (R8). -/
  address : Nat
  /-- `PACK_ORDER` (R10). -/
  packOrder : PackOrder
  /-- The configuration is legal (R9). -/
  legal : LegalSize rows columns
deriving DecidableEq, Repr

/-- Instantiating a block: an illegal size is refused (00_scope.md R9, 70_reset_and_hazards.md R155). -/
def Config.build? (rows columns address : Nat) (order : PackOrder) : Option Config :=
  if h : LegalSize rows columns then some ⟨rows, columns, address, order, h⟩ else none

/-- `NBITS`, the length of the bit buffer (00_scope.md R11). -/
def Config.nbits (c : Config) : Nat := c.rows * c.columns

/-- `NBYTES`, the number of packed data bytes when 8 divides `NBITS` (00_scope.md R11). -/
def Config.nbytes (c : Config) : Nat := c.nbits / 8

/-- The source's worked scenario, 16 rows, 20 columns, address 0 (00_scope.md R6 to R8), with the spec's value of
`PACK_ORDER` (R10). DESIGN CHOICE: `State.reset` uses it (assumption log entry 2). -/
def Config.scenario : Config := ⟨16, 20, 0, .msbFirst, by decide⟩

/-- FREE VALUE. What cell `cell` holds after the reset numbered `draw`: 70_reset_and_hazards.md R152, "an unspecified
value, 0 or 1, chosen independently per cell". No body, so nothing can evaluate it (assumption log entry 3). -/
opaque Config.freeCell (draw cell : Nat) : Bool

/-- FREE VALUE. What `ACC` holds after the reset numbered `draw`: "unspecified; unobservable" (70_reset_and_hazards.md
R150). No body (assumption log entry 4). -/
opaque Config.freeAcc (draw : Nat) : Byte

end Sys2Proof
end

