-- ==== Sys2Proof/Machine/State.lean ====
section
/-! DEFINITION. The state of the block as plain data: the complete list of 10_state.md R20, the configuration it was built
with, and three fields of the model's own (the host's coming actions, the read port's log, the count of resets). -/

namespace Sys2Proof.Machine

/-- Why the MACHINE stops. The block's own faults are not here: they are next states with `STATUS.FAULT = 1`
(60_exceptions.md R139), see `FaultCause`. -/
inductive Fault where
  /-- Raised by `acceptCommand`: a command word was written to a halted block. 60_exceptions.md R141: "a host write to
  it does not complete, and the block has no step until reset". SAFE: the model stops where the block has no step
  (assumption log entry 7). -/
  | halted
deriving DecidableEq, Repr

/-- What the model gives no meaning to. -/
inductive Refusal where
  /-- Raised by an arm of `exec` whose instruction has no meaning yet; no arm is in this case. SAFE. -/
  | notModelled (mnemonic : String)
  /-- Raised by `serveRead`: a read of register number 3 to 15. 10_state.md R30: "a model refuses a read of a reserved
  number (it gives it no meaning)". SAFE: the model stops. -/
  | reservedRegister (n : BitVec 4)
deriving DecidableEq, Repr

/-- The causes a fault can have (60_exceptions.md R131); their codes are `FaultCause.code`. -/
inductive FaultCause where
  /-- ILLEGAL_CMD, raised by any word that decodes as ILLEGAL (R132). -/
  | illegalCmd
  /-- COORD_RANGE, raised by SETPX (R133). -/
  | coordRange
  /-- INDEX_RANGE, raised by RDBIT (R134). -/
  | indexRange
  /-- ADDR_RANGE, raised by SEND (R135). -/
  | addrRange
  /-- LEN_ALIGN, raised by SEND (R136). -/
  | lenAlign
  /-- LEN_RANGE, raised by SEND (R137). -/
  | lenRange
deriving DecidableEq, Repr

/-- What the host can do to the block: its three inputs (00_scope.md R2, 10_state.md R30, 70_reset_and_hazards.md R150). -/
inductive HostEvent where
  /-- Write one command word to the command port (30_encoding.md R60). -/
  | command (w : Word)
  /-- Read the register of this number through the read port (10_state.md R30). -/
  | read (n : BitVec 4)
  /-- Assert reset (70_reset_and_hazards.md R150). The word, if any, is a command that was being written or executed when
  reset was asserted: it is abandoned. -/
  | reset (abandoned : Option Word)
deriving DecidableEq, Repr

/-- The state of the block. `bits` to `frames` are the spec's, all of 10_state.md R20. `cfg` is the parameter of the step
relation, the same for the whole life of the block (R34; assumption log entry 1). `inputs`, `replies` and `draws` are the
model's own (entries 5, 9, 3). -/
structure State where
  /-- `ROWS`, `COLUMNS`, `ADDRESS`, `PACK_ORDER` (00_scope.md R6 to R10). -/
  cfg : Config
  /-- `BITS`, cell 0 first: `NBITS` one-bit cells (10_state.md R21). -/
  bits : List Bool
  /-- `STATUS`, register number 0 (R25). -/
  status : Word
  /-- `RDATA`, register number 1 (R26). -/
  rdata : Word
  /-- `FCMD`, register number 2 (R27). -/
  fcmd : Word
  /-- `ACC`, the checksum accumulator (R28). -/
  acc : Byte
  /-- `FRAMES`, the frames emitted in this run, oldest first (R29). -/
  frames : List (List Byte)
  /-- What the host will do next, in order. -/
  inputs : List HostEvent
  /-- The values the register read port returned in this run, oldest first. -/
  replies : List Word
  /-- How many resets have happened: the number of the next reset's draw. -/
  draws : Nat
deriving DecidableEq, Repr

/-- The cells of `BITS` after the reset numbered `draw`: a free value each (70_reset_and_hazards.md R152). -/
def freeBuffer (c : Config) (draw : Nat) : List Bool :=
  (List.range c.nbits).map (Config.freeCell draw)

/-- The state right after a reset of a block built with `c` (70_reset_and_hazards.md R150): `STATUS`, `RDATA`, `FCMD` zero,
the logs empty, `BITS` and `ACC` the free values numbered `draw`. `inputs` is what the host will do next. -/
def State.afterReset (c : Config) (draw : Nat) (inputs : List HostEvent) : State where
  cfg := c
  bits := freeBuffer c draw
  status := 0
  rdata := 0
  fcmd := 0
  acc := Config.freeAcc draw
  frames := []
  inputs := inputs
  replies := []
  draws := draw + 1

/-- Power-on is a reset (70_reset_and_hazards.md R151). -/
def State.powerOn (c : Config) : State := State.afterReset c 0 []

/-- The machine right after reset, built with the source's worked scenario (assumption log entry 2). The host has written
nothing yet: there is no program to start (70_reset_and_hazards.md R153). -/
def State.reset : State := State.powerOn Config.scenario

end Sys2Proof.Machine
end

