-- ==== Sys2Proof/Machine/Flags.lean ====
section
/-! DEFINITION. The block has no condition codes (10_state.md R33): its only flag is `STATUS.FAULT`. This file holds the
fields of `STATUS` (R25), the cause codes (60_exceptions.md R131), and the layout of `RDATA` (10_state.md R26). -/

namespace Sys2Proof.Machine

/-- Cause codes, written to `STATUS.CAUSE` (60_exceptions.md R131). -/
def FaultCause.code : FaultCause → BitVec 4
  | .illegalCmd => 1
  | .coordRange => 2
  | .indexRange => 3
  | .addrRange => 4
  | .lenAlign => 5
  | .lenRange => 6

/-- `STATUS` with its two fields and its hard-wired zeros: FAULT bit 0, CAUSE bits 7:4 (10_state.md R25). -/
def statusWord (fault : Bool) (cause : BitVec 4) : Word :=
  0#24 ++ cause ++ 0#3 ++ BitVec.ofBool fault

/-- `STATUS.FAULT`, bit 0 (10_state.md R25). -/
def statusFault (st : Word) : Bool := st.getLsbD 0

/-- `STATUS.CAUSE`, bits 7:4 (10_state.md R25). -/
def statusCause (st : Word) : BitVec 4 := st.extractLsb' 4 4

/-- The block is halted exactly when `STATUS.FAULT = 1` (10_state.md R31). -/
def halted (s : State) : Bool := statusFault s.status

/-- `zext_32` of one cell: the value RDBIT writes to `RDATA` (40_pixel_buffer.md R86, 10_state.md R26). -/
def rdataWord (v : Bool) : Word := (BitVec.ofBool v).setWidth 32

end Sys2Proof.Machine
end

