-- ==== Sys2Proof/Machine/Operands.lean ====
section
/-! DEFINITION. The operand forms of the commands: the index map (40_pixel_buffer.md R80, R81) and the checks on the
operands (60_exceptions.md R133, R134), with the named constants they use (00_scope.md R12). -/

namespace Sys2Proof.Machine

/-- `FOLD_SPLIT` (00_scope.md R12). -/
def foldSplit : Nat := 7
/-- `FOLD_A` (00_scope.md R12). -/
def foldA : Nat := 6
/-- `FOLD_B` (00_scope.md R12). -/
def foldB : Nat := 22
/-- `HIDDEN_ROWS` (00_scope.md R12). -/
def hiddenRows : Nat := 2

/-- `RowFold(y)`, the physical row of logical row `y`, exact: negative for `y > 22` (40_pixel_buffer.md R80). -/
def rowFold (y : Nat) : Int :=
  if y < foldSplit then (foldA : Int) - (y : Int) else (foldB : Int) - (y : Int)

/-- `BitIndex(x, y) = RowFold(y) + x * ROWS` (40_pixel_buffer.md R81). -/
def bitIndex (c : Config) (x y : Nat) : Int := rowFold y + (x : Int) * (c.rows : Int)

/-- The cell SETPX writes. For a settable pixel of a legal configuration `bitIndex` is not negative (40_pixel_buffer.md
R82), so this is `bitIndex` itself; no other pixel reaches it. -/
def pixelCell (c : Config) (x y : Nat) : Nat := (bitIndex c x y).toNat

/-- `x < COLUMNS and y + HIDDEN_ROWS < ROWS` (40_pixel_buffer.md R84, 60_exceptions.md R133). -/
def settable (c : Config) (x y : Nat) : Bool :=
  decide (x < c.columns) && decide (y + hiddenRows < c.rows)

/-- `idx < NBITS` (20_memory.md R41, 60_exceptions.md R134). -/
def indexValid (c : Config) (idx : Nat) : Bool := decide (idx < c.nbits)

end Sys2Proof.Machine
end

