-- ==== Sys2Proof/Machine/Ops.lean ====
section
/-! DEFINITION. The named operations every command is built from: the buffer primitives (00_scope.md R14), the writes of
the registers and of the frame port, fault entry (60_exceptions.md R139), reset (70_reset_and_hazards.md R150: the only way
out of a fault) and the register read port (10_state.md R30). -/

namespace Sys2Proof.Machine

/-- `BitRead(i)`. No rule reads outside `0 .. NBITS-1` (20_memory.md R41); past the end of the list, which only a state
that no run reaches makes short, this is false (assumption log entry 10). -/
def bitRead (bits : List Bool) (i : Nat) : Bool := bits.getD i false

/-- `BitWrite(i, v)`: one cell changes and the number of cells does not (10_state.md R22). -/
def bitWrite (bits : List Bool) (i : Nat) (v : Bool) : List Bool := bits.set i v

/-- `NBITS` cells, all 0 (40_pixel_buffer.md R85). -/
def zeroBits (n : Nat) : List Bool := List.replicate n false

/-- The canonical form of the buffer: exactly `NBITS` cells, in index order (10_state.md R21, R22). -/
def Memory.wf (c : Config) (bits : List Bool) : Bool := decide (bits.length = c.nbits)

/-- Write the buffer. -/
def State.withBits (s : State) (b : List Bool) : State := { s with bits := b }

/-- Write `RDATA` with one bit (10_state.md R26). -/
def State.withRdata (s : State) (v : Bool) : State := { s with rdata := rdataWord v }

/-- The writes of fault entry: `STATUS.FAULT <- 1`, `STATUS.CAUSE <- c`, `FCMD <- w` (60_exceptions.md R139). -/
def State.withFault (s : State) (c : FaultCause) (w : Word) : State :=
  { s with status := statusWord true c.code, fcmd := w }

/-- `Emit(frame)`, with the accumulator's final value (00_scope.md R14, 10_state.md R29, 41_packet_codec.md R109). -/
def State.withFrame (s : State) (acc : Byte) (f : List Byte) : State :=
  { s with acc := acc, frames := s.frames ++ [f] }

/-- Set what the host will do next. -/
def State.withInputs (s : State) (es : List HostEvent) : State := { s with inputs := es }

/-- Log one answer of the read port. -/
def State.withReply (s : State) (w : Word) : State := { s with replies := s.replies ++ [w] }

/-- Fault entry (60_exceptions.md R139): a next state in which the block is halted. `raise Fault(c)` of the command word
`w`; control goes nowhere, and nothing but `STATUS` and `FCMD` is written (R140). -/
def raiseFault (c : FaultCause) (w : Word) (s : State) : Host.Outcome State Fault Refusal :=
  .next (s.withFault c w)

/-- Reset (70_reset_and_hazards.md R150), at any time: the only thing that clears a fault (60_exceptions.md R142). The
configuration survives (10_state.md R34); the buffer and the accumulator are drawn anew; the logs start a new run. -/
def State.resetNow (s : State) : State := State.afterReset s.cfg s.draws s.inputs

/-- The register read port: 0 `STATUS`, 1 `RDATA`, 2 `FCMD`; 3 to 15 reserved (10_state.md R30). -/
def readRegister (s : State) (n : BitVec 4) : Option Word :=
  if n = 0 then some s.status
  else if n = 1 then some s.rdata
  else if n = 2 then some s.fcmd
  else none

end Sys2Proof.Machine
end

