-- ==== Sys2Proof/Machine/PacketCodec.lean ====
section
/-! DEFINITION. The packet codec: hex encoding, packing, the checksum accumulator, the frame, and SEND
(41_packet_codec.md R100 to R109), with the named constants they use (00_scope.md R12). -/

namespace Sys2Proof.Machine

/-- `ADDR_OFFSET` (00_scope.md R12). -/
def addrOffset : Nat := 17
/-- `CSUM_BIAS` (00_scope.md R12). -/
def csumBias : Byte := 1
/-- `STX` (00_scope.md R12). -/
def stx : Byte := 0x02
/-- `ETX` (00_scope.md R12). -/
def etx : Byte := 0x03
/-- `BYTE_LIMIT` (00_scope.md R12). -/
def byteLimit : Nat := 256
/-- `BITS_PER_BYTE` (00_scope.md R12). -/
def bitsPerByte : Nat := 8

/-- `Digit(d)`, the uppercase ASCII hex digit (41_packet_codec.md R100). -/
def hexDigit (d : BitVec 4) : Byte :=
  if d ≤ 9#4 then 0x30#8 + d.setWidth 8 else 0x41#8 + (d.setWidth 8 - 10#8)

/-- `HexEncode(v)`, high nibble first (41_packet_codec.md R101, 20_memory.md R46). Its argument is 8 bits wide, so a value
of 256 or more is a type error here and is caught by `sendCheck` before (R102). -/
def hexEncode (v : Byte) : List Byte := [hexDigit (v.extractLsb' 4 4), hexDigit (v.extractLsb' 0 4)]

/-- The bit of its byte that cell `j` of a group goes to (20_memory.md R44). -/
def orderPlace : PackOrder → Nat → Nat
  | .msbFirst, j => bitsPerByte - 1 - j
  | .lsbFirst, j => j

/-- `D[k]`: the sum over j in 0..7 of `BITS[8k + j]` shifted to its place (41_packet_codec.md R103). -/
def packByte (o : PackOrder) (bits : List Bool) (k : Nat) : Byte :=
  (List.range bitsPerByte).foldl
    (fun d j => d + ((BitVec.ofBool (bitRead bits (bitsPerByte * k + j))).setWidth 8) <<< (orderPlace o j)) 0

/-- `Pack(BITS)`: the bytes `D[0] .. D[n-1]` in increasing k (41_packet_codec.md R103, 20_memory.md R43). -/
def pack (o : PackOrder) (n : Nat) (bits : List Bool) : List Byte := (List.range n).map (packByte o bits)

/-- `Unpack(D)`, the inverse of the packing (20_memory.md R45). -/
def unpack (o : PackOrder) (ds : List Byte) : List Bool :=
  ds.flatMap fun d => (List.range bitsPerByte).map fun j => d.getLsbD (orderPlace o j)

/-- The accumulator's value after adding `bytes` in order to a cleared `ACC` (41_packet_codec.md R104, R105). -/
def accumulate (bytes : List Byte) : Byte := bytes.foldl (fun acc b => acc + b) 0

/-- `CSUM = (ACC + CSUM_BIAS) mod 256` (41_packet_codec.md R106). -/
def csumOf (acc : Byte) : Byte := acc + csumBias

/-- `CS = ((CSUM XOR 0xFF) + 1) mod 256` (41_packet_codec.md R106). -/
def finalise (acc : Byte) : Byte := (csumOf acc ^^^ 0xFF#8) + 1

/-- The frame's bytes before ETX, the ones the checksum covers: STX, address, length, data (41_packet_codec.md R105, R108). -/
def frameBody (c : Config) (bits : List Bool) : List Byte :=
  [stx] ++ hexEncode (BitVec.ofNat 8 (c.address + addrOffset)) ++ hexEncode (BitVec.ofNat 8 c.nbytes)
    ++ (pack c.packOrder c.nbytes bits).flatMap hexEncode

/-- The complete frame (41_packet_codec.md R108). -/
def frameOf (c : Config) (bits : List Bool) : List Byte :=
  frameBody c bits ++ [etx] ++ hexEncode (finalise (accumulate (frameBody c bits)))

/-- SEND's three checks in their order (41_packet_codec.md R109, 60_exceptions.md R135 to R138). -/
def sendCheck (c : Config) : Option FaultCause :=
  if ¬ c.address + addrOffset < byteLimit then some .addrRange
  else if c.nbits % bitsPerByte ≠ 0 then some .lenAlign
  else if ¬ c.nbytes < byteLimit then some .lenRange
  else none

/-- SEND (41_packet_codec.md R109): one of its three faults and no frame, or one whole frame and the final sum in `ACC`. -/
def execSend (s : State) : Host.Outcome State Fault Refusal :=
  match sendCheck s.cfg with
  | some cause => raiseFault cause (encode .send) s
  | none => .next (s.withFrame (accumulate (frameBody s.cfg s.bits)) (frameOf s.cfg s.bits))

end Sys2Proof.Machine
end

