-- ==== Sys2Proof/Machine/PixelBuffer.lean ====
section
/-! DEFINITION. The commands of the pixel buffer: SETPX, CLEAR, RDBIT (40_pixel_buffer.md R84 to R86). -/

namespace Sys2Proof.Machine

/-- SETPX (40_pixel_buffer.md R84): COORD_RANGE, or one cell written. -/
def execSetpx (x y : Nat) (st : Bool) (s : State) : Host.Outcome State Fault Refusal :=
  if settable s.cfg x y then .next (s.withBits (bitWrite s.bits (pixelCell s.cfg x y) st))
  else raiseFault .coordRange (encode (.setpx x y st)) s

/-- CLEAR (40_pixel_buffer.md R85): every cell 0, the unreached physical rows too. -/
def execClear (s : State) : Host.Outcome State Fault Refusal :=
  .next (s.withBits (zeroBits s.cfg.nbits))

/-- RDBIT (40_pixel_buffer.md R86): INDEX_RANGE, or `RDATA <- zext_32(BITS[idx])`. -/
def execRdbit (idx : Nat) (s : State) : Host.Outcome State Fault Refusal :=
  if indexValid s.cfg idx then .next (s.withRdata (bitRead s.bits idx))
  else raiseFault .indexRange (encode (.rdbit idx)) s

end Sys2Proof.Machine
end

