-- ==== Sys2Proof/Machine/Dispatch.lean ====
section
/-! DEFINITION. One arm per command: the meaning of each (30_encoding.md R65 names the rule of each). -/

namespace Sys2Proof.Machine

/-- The meaning of an accepted command. -/
def exec (i : Instr) (s : State) : Host.Outcome State Fault Refusal :=
  match i with
  | .setpx x y st => Sys2Proof.Machine.execSetpx x y st s
  | .clear => Sys2Proof.Machine.execClear s
  | .send => Sys2Proof.Machine.execSend s
  | .rdbit idx => Sys2Proof.Machine.execRdbit idx s

end Sys2Proof.Machine
end

