-- ==== Sys2Proof/Machine/Ports.lean ====
section
/-! DEFINITION. The block's three inputs: the command port, the register read port and the reset input (00_scope.md R2,
10_state.md R30, 70_reset_and_hazards.md R150). -/

namespace Sys2Proof.Machine

/-- The command port: a halted block accepts no command (60_exceptions.md R141); otherwise the word is decoded, and an
ILLEGAL word faults with nothing of it executed (R132). Decoding comes before any check of an operand (R138). -/
def acceptCommand (w : Word) (s : State) : Host.Outcome State Fault Refusal :=
  if halted s then .fault .halted
  else
    match decode w with
    | .ok i => exec i s
    | .error _ => raiseFault .illegalCmd w s

/-- The register read port, answering at any time, also while halted (10_state.md R30). -/
def serveRead (n : BitVec 4) (s : State) : Host.Outcome State Fault Refusal :=
  match readRegister s n with
  | some w => .next (s.withReply w)
  | none => .refused (.reservedRegister n)

/-- One action of the host. A command that reset abandons leaves nothing behind (70_reset_and_hazards.md R150). -/
def serve (e : HostEvent) (s : State) : Host.Outcome State Fault Refusal :=
  match e with
  | .command w => acceptCommand w s
  | .read n => serveRead n s
  | .reset _ => .next s.resetNow

/-- One step: the host's next action (20_memory.md R53, 70_reset_and_hazards.md R157), or, when the host does nothing, no
change (assumption log entry 6). -/
def serveNext (s : State) : Host.Outcome State Fault Refusal :=
  match s.inputs with
  | [] => .next s
  | e :: rest => serve e (s.withInputs rest)

/-- The host's next action becomes the write of this word. -/
def hostWritesNext (w : Word) (s : State) : State := s.withInputs (.command w :: s.inputs)

end Sys2Proof.Machine
end

