-- ==== Sys2Proof/Machine/Step.lean ====
section
/-! DEFINITION. The step of the machine, and the placing of a word where the step takes its next command. -/

namespace Sys2Proof.Machine

/-- One step of the machine: the host's next action, served (20_memory.md R53). -/
def step : State → Host.Outcome State Fault Refusal := serveNext

/-- The block fetches nothing (10_state.md R24): the next command is the next word the host writes. -/
def State.withFetchWord (s : State) (nbits w : Nat) : State := hostWritesNext (tableWord nbits w) s

end Sys2Proof.Machine
end

