-- ==== Sys2Proof/Machine/Assembler.lean ====
section
/-! DEFINITION. The assembler's text form (30_encoding.md R69) and the pseudo-instructions (R70). It refuses an operand that
does not fit its field and an unknown mnemonic; it checks nothing against the configuration. -/

namespace Sys2Proof.Machine

/-- `PXON x, y` (30_encoding.md R70). -/
def pxon (x y : Nat) : Instr := .setpx x y true

/-- `PXOFF x, y` (30_encoding.md R70). -/
def pxoff (x y : Nat) : Instr := .setpx x y false

/-- Why a line is refused. R69 names the first and the last; the other two are its syntax not met (assumption log
entry 17). -/
inductive AsmError where
  /-- The mnemonic is not one of the four commands or the two pseudo-instructions. -/
  | unknownMnemonic
  /-- The command takes another number of operands. -/
  | wrongOperandCount
  /-- An operand is not a decimal or `0x` number. -/
  | badNumber
  /-- An operand does not fit its field. -/
  | operandOutOfRange
deriving DecidableEq, Repr

/-- "`;` starts a comment to the end of the line" (R69). -/
def asmStripComment (l : List Char) : List Char := l.takeWhile fun c => c != ';'

/-- White space between the parts of a line. -/
def asmBlank (c : Char) : Bool := c == ' ' || c == '\t' || c == '\r'

/-- A part without the white space around it. -/
def asmTrim (l : List Char) : List Char :=
  ((l.dropWhile asmBlank).reverse.dropWhile asmBlank).reverse

/-- The parts of `l` between the characters `sep`. -/
def asmSplit (sep : Char) : List Char → List (List Char)
  | [] => [[]]
  | c :: l =>
    if c = sep then [] :: asmSplit sep l
    else
      match asmSplit sep l with
      | [] => [[c]]
      | h :: t => (c :: h) :: t

/-- The value of one digit, if it is a digit of the base. -/
def asmDigit (base : Nat) (c : Char) : Option Nat :=
  let v := if '0' ≤ c ∧ c ≤ '9' then c.toNat - 48
    else if 'a' ≤ c ∧ c ≤ 'f' then c.toNat - 87
    else if 'A' ≤ c ∧ c ≤ 'F' then c.toNat - 55
    else base
  if v < base then some v else none

/-- The number written by at least one digit. -/
def asmDigits (base : Nat) : List Char → Option Nat
  | [] => none
  | l => l.foldl (fun acc c => acc.bind fun n => (asmDigit base c).map fun d => n * base + d) (some 0)

/-- "numbers are decimal or `0x`-prefixed hexadecimal" (R69). -/
def asmNumber : List Char → Option Nat
  | '0' :: 'x' :: l => asmDigits 16 l
  | l => asmDigits 10 l

/-- The numbers of an operand list. -/
def asmNumbers : List (List Char) → Option (List Nat)
  | [] => some []
  | l :: ls => (asmNumber l).bind fun n => (asmNumbers ls).map fun ns => n :: ns

/-- The command a mnemonic and its operands name (R69, R70). -/
def asmCommand (mnemonic : List Char) (ops : List Nat) : Except AsmError Instr :=
  if mnemonic = ['S', 'E', 'T', 'P', 'X'] then
    match ops with
    | [x, y, st] => if st ≤ 1 then .ok (.setpx x y (st == 1)) else .error .operandOutOfRange
    | _ => .error .wrongOperandCount
  else if mnemonic = ['P', 'X', 'O', 'N'] then
    match ops with
    | [x, y] => .ok (pxon x y)
    | _ => .error .wrongOperandCount
  else if mnemonic = ['P', 'X', 'O', 'F', 'F'] then
    match ops with
    | [x, y] => .ok (pxoff x y)
    | _ => .error .wrongOperandCount
  else if mnemonic = ['C', 'L', 'E', 'A', 'R'] then
    match ops with
    | [] => .ok .clear
    | _ => .error .wrongOperandCount
  else if mnemonic = ['S', 'E', 'N', 'D'] then
    match ops with
    | [] => .ok .send
    | _ => .error .wrongOperandCount
  else if mnemonic = ['R', 'D', 'B', 'I', 'T'] then
    match ops with
    | [idx] => .ok (.rdbit idx)
    | _ => .error .wrongOperandCount
  else .error .unknownMnemonic

/-- The operand texts after the mnemonic, comma-separated (R69). -/
def asmOperands (l : List Char) : List (List Char) :=
  if asmTrim l = [] then [] else (asmSplit ',' l).map asmTrim

/-- A mnemonic and its numbers: the command they name, if its operands fit their fields (R69). -/
def asmFinish (mnemonic : List Char) : Option (List Nat) → Except AsmError (Option Instr)
  | none => .error .badNumber
  | some ops =>
    match asmCommand mnemonic ops with
    | .error e => .error e
    | .ok i => if i.wellFormed then .ok (some i) else .error .operandOutOfRange

/-- One line: nothing, or one command whose operands fit their fields (R69). -/
def assembleLine (line : List Char) : Except AsmError (Option Instr) :=
  let l := asmTrim (asmStripComment line)
  if l = [] then .ok none
  else
    asmFinish ((l.takeWhile fun c => !asmBlank c).map Char.toUpper)
      (asmNumbers (asmOperands (l.dropWhile fun c => !asmBlank c)))

/-- The words of the lines, in order; the first refused line refuses the text. -/
def assembleLines : List (List Char) → Except AsmError (List Word)
  | [] => .ok []
  | line :: rest =>
    match assembleLine line, assembleLines rest with
    | .error e, _ => .error e
    | .ok _, .error e => .error e
    | .ok none, .ok ws => .ok ws
    | .ok (some i), .ok ws => .ok (encode i :: ws)

/-- A program text, one command per line (R69): its command words. -/
def assemble (text : List Char) : Except AsmError (List Word) := assembleLines (asmSplit '\n' text)

end Sys2Proof.Machine
end

