-- ==== Sys2Proof/Safety.lean ====
section
/-! DEFINITION. What a well-formed state is, what a run is and what is seen of it (70_reset_and_hazards.md R160), and when a
run has gone wrong. Statements are made in these terms. -/

namespace Sys2Proof.Machine

/-- The reserved bits of `STATUS`, 3:1 and 31:8 (10_state.md R25). -/
def statusReservedMask : Word := 0xFFFFFF0E#32

/-- The legal values of `STATUS`: reserved bits zero, CAUSE at most 6, and CAUSE 0 exactly when FAULT is 0 (R25). -/
def StatusWf (st : Word) : Prop :=
  st &&& statusReservedMask = 0#32 ∧ statusCause st ≤ 6#4 ∧ (statusCause st = 0#4 ↔ statusFault st = false)

/-- The sixteen characters of an encoded byte, '0' to '9' and 'A' to 'F' (41_packet_codec.md R111). -/
def isHexChar (b : Byte) : Bool :=
  (decide (0x30#8 ≤ b) && decide (b ≤ 0x39#8)) || (decide (0x41#8 ≤ b) && decide (b ≤ 0x46#8))

/-- The integer sum of a byte sequence (41_packet_codec.md R107). -/
def byteSum (bs : List Byte) : Nat := (bs.map BitVec.toNat).sum

/-- `Checksum(B) = ((((sum(B) + 1) mod 256) XOR 0xFF) + 1) mod 256`, a function of the integer sum (41_packet_codec.md R107). -/
def checksumOf (bs : List Byte) : Nat := ((((byteSum bs + 1) % 256) ^^^ 0xFF) + 1) % 256

/-- A frame as a receiver checks it, on a block built with `c`, whatever its data (41_packet_codec.md R108, R110, R111). -/
structure FrameWf (c : Config) (f : List Byte) : Prop where
  /-- R111: `8 + 2 * NBYTES` bytes. -/
  length_eq : f.length = 8 + 2 * c.nbytes
  /-- R108, position 0. -/
  starts : f[0]? = some 0x02#8
  /-- R108, positions 1 and 2: the address byte, which fits a byte. -/
  address : c.address + 17 < 256 ∧ (f.drop 1).take 2 = hexEncode (BitVec.ofNat 8 (c.address + 17))
  /-- R108, positions 3 and 4: the length byte, which fits a byte. -/
  length_chars : c.nbits % 8 = 0 ∧ c.nbytes < 256 ∧ (f.drop 3).take 2 = hexEncode (BitVec.ofNat 8 c.nbytes)
  /-- R111: positions 1 to 4 + 2N are hex characters. -/
  chars : ∀ b ∈ (f.drop 1).take (4 + 2 * c.nbytes), isHexChar b = true
  /-- R108, position 5 + 2N. -/
  ends : f[5 + 2 * c.nbytes]? = some 0x03#8
  /-- R108, positions 6 + 2N and 7 + 2N, and R110: the two last characters encode the byte that makes the sum of the bytes
  before ETX, the 1 and itself 0 mod 256. -/
  check : ∃ cs : Byte, f.drop (6 + 2 * c.nbytes) = hexEncode cs ∧
    (byteSum (f.take (5 + 2 * c.nbytes)) + 1 + cs.toNat) % 256 = 0

/-- The invariant of every run: what the spec says of the registers, the buffer and the frames at all times. -/
structure State.Inv (s : State) : Prop where
  /-- `BITS` has `NBITS` cells (10_state.md R21, R22). -/
  bits_wf : Memory.wf s.cfg s.bits = true
  /-- `STATUS` holds a legal value (10_state.md R25). -/
  status_wf : StatusWf s.status
  /-- `RDATA` bits 31:1 read as zero (10_state.md R26). -/
  rdata_wf : s.rdata &&& 0xFFFFFFFE#32 = 0#32
  /-- While `STATUS.FAULT = 0`, `FCMD = 0` (10_state.md R27). -/
  fcmd_wf : halted s = false → s.fcmd = 0#32
  /-- Every emitted frame is whole and balances its checksum (10_state.md R29, 41_packet_codec.md R110). -/
  frames_wf : ∀ f ∈ s.frames, FrameWf s.cfg f

/-- Logical pixel `(x, y)` of the grid a caller sees, read through the index map (40_pixel_buffer.md R81, R87). -/
def gridPixel (s : State) (x y : Nat) : Bool := bitRead s.bits (pixelCell s.cfg x y)

/-- Physical row `r` of each column is unreached: the fold of no settable row gives it (40_pixel_buffer.md R83). -/
def rowUnreached (rows r : Nat) : Bool :=
  decide (r < rows) && (List.range rows).all fun y => decide (y + hiddenRows < rows → rowFold y ≠ (r : Int))

/-- The cause a faulting command word raises, by what it decodes to (60_exceptions.md R131, R138): none for CLEAR, which
raises nothing. -/
def causeRaised (c : Config) : Except IllegalWord Instr → Option FaultCause
  | .error _ => some .illegalCmd
  | .ok (.setpx _ _ _) => some .coordRange
  | .ok .clear => none
  | .ok .send =>
    some (if 256 ≤ c.address + 17 then .addrRange else if c.nbits % 8 ≠ 0 then .lenAlign else .lenRange)
  | .ok (.rdbit _) => some .indexRange

/-- `l` writes the number `n`: decimal digits, or `0x` and hexadecimal digits, most significant first (30_encoding.md R69).
A hexadecimal digit is paired with whether its letter is a capital one. -/
def NumberText (l : List Char) (n : Nat) : Prop :=
  (∃ ds : List Nat, ds ≠ [] ∧ (∀ d ∈ ds, d < 10) ∧ l = ds.map Nat.digitChar ∧ n = Nat.ofDigits 10 ds.reverse) ∨
  ∃ ds : List (Nat × Bool), ds ≠ [] ∧ (∀ d ∈ ds, d.1 < 16) ∧
    l = '0' :: 'x' :: (ds.map fun d => if d.2 then (Nat.digitChar d.1).toUpper else Nat.digitChar d.1) ∧
    n = Nat.ofDigits 16 (ds.map Prod.fst).reverse

/-- `mn`, in any case, is the mnemonic `name` (30_encoding.md R69). -/
def MnemonicText (mn : List Char) (name : String) : Prop := mn.map Char.toUpper = name.toList

/-- A line: the mnemonic, at least one space, and the operands with commas between them, each comma followed by `j` spaces
(30_encoding.md R69). -/
def lineText (mn : List Char) (k j : Nat) : List (List Char) → List Char
  | [] => mn
  | l :: ls => mn ++ (List.replicate (k + 1) ' ' ++ (l ++ ls.flatMap fun m => ',' :: (List.replicate j ' ' ++ m)))

/-- The observation of a run (70_reset_and_hazards.md R160). -/
structure Observation where
  bits : List Bool
  status : Word
  rdata : Word
  fcmd : Word
  frames : List (List Byte)
deriving DecidableEq, Repr

/-- What is seen of a state: `ACC` is not seen (70_reset_and_hazards.md R160, 10_state.md R28). -/
def State.observe (s : State) : Observation := ⟨s.bits, s.status, s.rdata, s.fcmd, s.frames⟩

/-- The start of a run: the state after a reset, and the host's command words (70_reset_and_hazards.md R160). -/
def State.start (c : Config) (draw : Nat) (words : List Word) : State :=
  State.afterReset c draw (words.map .command)

/-- The run of a sequence of command words from `s`: each is accepted in its turn (70_reset_and_hazards.md R160); it stops
where a word is written to a halted block. -/
def runCommands : List Word → State → Host.Outcome State Fault Refusal
  | [], s => .next s
  | w :: ws, s =>
    match acceptCommand w s with
    | .next t => runCommands ws t
    | .fault r => .fault r
    | .refused r => .refused r

/-- Commands executed one after the other (20_memory.md R53). -/
def runInstrs : List Instr → State → Host.Outcome State Fault Refusal
  | [], s => .next s
  | i :: is, s =>
    match exec i s with
    | .next t => runInstrs is t
    | .fault r => .fault r
    | .refused r => .refused r

/-- What is seen of the end of a run. -/
def observeOutcome : Host.Outcome State Fault Refusal → Host.Outcome Observation Fault Refusal
  | .next t => .next t.observe
  | .fault r => .fault r
  | .refused r => .refused r

/-- A run that ends with `STATUS.FAULT = 1` has gone wrong (70_reset_and_hazards.md R160); so has one that wrote a command
to a halted block. -/
def goneWrong : Host.Outcome State Fault Refusal → Bool
  | .next t => halted t
  | .fault _ => true
  | .refused _ => true

end Sys2Proof.Machine
end

