-- ==== Sys2Proof/Certificates/Slice0/Obligations.lean ====
section
/-! DEFINITION. The statements about the HFD block that are to be proved. Each docstring names the rule of spec/ it
formalises. No statement rests on a free value: each holds whatever `Config.freeCell` and `Config.freeAcc` are. -/

open Sys2Proof Sys2Proof.Machine

/-! ## Configuration -/

/-- 00_scope.md R9: a block can be instantiated exactly for the legal sizes; and the legal row counts are exactly those for
which the fold keeps every settable row inside `[0, ROWS)` and is injective on them. -/
def Obligations.LegalSizesAreThoseWhereTheFoldWorks : Prop :=
  (∀ (rows columns address : Nat) (o : PackOrder),
    (Config.build? rows columns address o).isSome = true ↔
      (rows = 1 ∨ rows = 2 ∨ rows = 7 ∨ rows = 8 ∨ rows = 9 ∨ rows = 16 ∨ rows = 17 ∨ rows = 18) ∧
        1 ≤ columns ∧ columns ≤ 4096) ∧
  ∀ rows : Nat, 1 ≤ rows →
    (rows ∈ legalRows ↔
      (∀ y, y + 2 < rows → 0 ≤ rowFold y ∧ rowFold y < rows) ∧
        ∀ y y', y + 2 < rows → y' + 2 < rows → rowFold y = rowFold y' → y = y')

/-! ## Encoding -/

/-- 30_encoding.md R71: the encoding functions, their inverse, and the rule's example. -/
def Obligations.DecodeInvertsTheSpecsEncoding : Prop :=
  (∀ (x y : Nat) (st : Bool), x ≤ 4095 → y ≤ 255 →
    encode (.setpx x y st) =
      (0x1#32 <<< 28) ||| ((BitVec.ofBool st).setWidth 32 <<< 27) ||| (BitVec.ofNat 32 x <<< 8) ||| BitVec.ofNat 32 y) ∧
  encode .clear = 0x20000000#32 ∧
  encode .send = 0x30000000#32 ∧
  (∀ idx : Nat, idx ≤ 131071 → encode (.rdbit idx) = (0x4#32 <<< 28) ||| BitVec.ofNat 32 idx) ∧
  (∀ i : Instr, i.wellFormed = true → decode (encode i) = .ok i) ∧
  encode (.setpx 3 10 true) = 0x1800030A#32

/-- 30_encoding.md R66, R71: a legal word is the encoding of the one command it decodes to. -/
def Obligations.EveryLegalWordIsTheEncodingOfItsCommand : Prop :=
  ∀ (w : Word) (i : Instr), decode w = .ok i → i.wellFormed = true ∧ encode i = w

/-- 30_encoding.md R65: a word selects the row whose mask and match it meets, with the operands of R64, and no row
otherwise. -/
def Obligations.DecodeSelectsTheRowByMaskAndMatch : Prop :=
  ∀ w : Word,
    (w &&& 0xF7F00000#32 = 0x10000000#32 →
      decode w = .ok (.setpx (w.toNat / 256 % 4096) (w.toNat % 256) (w.getLsbD 27))) ∧
    (w &&& 0xFFFFFFFF#32 = 0x20000000#32 → decode w = .ok .clear) ∧
    (w &&& 0xFFFFFFFF#32 = 0x30000000#32 → decode w = .ok .send) ∧
    (w &&& 0xFFFE0000#32 = 0x40000000#32 → decode w = .ok (.rdbit (w.toNat % 131072))) ∧
    (w &&& 0xF7F00000#32 ≠ 0x10000000#32 → w &&& 0xFFFFFFFF#32 ≠ 0x20000000#32 →
      w &&& 0xFFFFFFFF#32 ≠ 0x30000000#32 → w &&& 0xFFFE0000#32 ≠ 0x40000000#32 → ∃ e, decode w = .error e)

/-- 30_encoding.md R67, 60_exceptions.md R132: exactly the words with a reserved OP, or with a reserved bit of their format
set, are ILLEGAL; written to a running block, each raises ILLEGAL_CMD and nothing of it is executed; the all-zero word is
one of them. -/
def Obligations.IllegalWordsAreThoseWithReservedBitsAndFault : Prop :=
  (∀ w : Word,
    (∃ e, decode w = .error e) ↔
      wordOp w = 0#4 ∨ 5#4 ≤ wordOp w ∨
      (wordOp w = 1#4 ∧ w.extractLsb' 20 7 ≠ 0#7) ∨
      ((wordOp w = 2#4 ∨ wordOp w = 3#4) ∧ w.extractLsb' 0 28 ≠ 0#28) ∨
      (wordOp w = 4#4 ∧ w.extractLsb' 17 11 ≠ 0#11)) ∧
  (∃ e, decode 0x00000000#32 = .error e) ∧
  ∀ (s : State) (w : Word) (rest : List HostEvent) (e : IllegalWord),
    s.inputs = .command w :: rest → halted s = false → decode w = .error e →
      ∃ t, step s = .next t ∧ t.status = 0x11#32 ∧ t.fcmd = w ∧
        t.cfg = s.cfg ∧ t.bits = s.bits ∧ t.rdata = s.rdata ∧ t.acc = s.acc ∧ t.frames = s.frames ∧
        t.inputs = rest ∧ t.replies = s.replies ∧ t.draws = s.draws

/-- 30_encoding.md R70: the words of the pseudo-instructions. -/
def Obligations.PseudoInstructionsAreSetpxWords : Prop :=
  ∀ x y : Nat, x ≤ 4095 → y ≤ 255 →
    pxon x y = .setpx x y true ∧ encode (pxon x y) = 0x18000000#32 ||| (BitVec.ofNat 32 x <<< 8) ||| BitVec.ofNat 32 y ∧
    pxoff x y = .setpx x y false ∧
      encode (pxoff x y) = 0x10000000#32 ||| (BitVec.ofNat 32 x <<< 8) ||| BitVec.ofNat 32 y

/-- 30_encoding.md R61 to R67: words written out from the formats decode to the commands they stand for. Ten are rows V-D of
95_test_vectors.md; 0x1000130D, SETPX 19, 13, 0, is worked out by hand from R61. That an ILLEGAL word is rejected under one
of two names is the model's choice (assumption log entry 19): the spec has one ILLEGAL. -/
def Obligations.WordsWrittenFromTheFormatsDecode : Prop :=
  decode 0x18000000#32 = .ok (.setpx 0 0 true) ∧ decode 0x1800030A#32 = .ok (.setpx 3 10 true) ∧
  decode 0x180FFFFF#32 = .ok (.setpx 4095 255 true) ∧ decode 0x1000130D#32 = .ok (.setpx 19 13 false) ∧
  decode 0x20000000#32 = .ok .clear ∧ decode 0x30000000#32 = .ok .send ∧
  decode 0x4000003F#32 = .ok (.rdbit 63) ∧ decode 0x4001FFFF#32 = .ok (.rdbit 131071) ∧
  decode 0x18800000#32 = .error .reservedBitSet ∧ decode 0x40020000#32 = .error .reservedBitSet ∧
  decode 0x50000000#32 = .error .undefinedOp

/-- 30_encoding.md R69, R70: the text of each mnemonic, in any case, with its comma-separated operands names that command,
unless an operand does not fit its field: then the line is refused. An unknown mnemonic is refused; a comment and the spaces
before it are nothing; each line of a text gives its command's word; and every accepted command is one that R71 encodes.
Which white space may stand between the parts is the model's choice (assumption log entry 17). -/
def Obligations.AssemblerReadsTheSpecsSyntax : Prop :=
  (∀ (mn lx ly ls : List Char) (x y n k j : Nat), NumberText lx x → NumberText ly y → NumberText ls n →
    MnemonicText mn "SETPX" →
    (x ≤ 4095 → y ≤ 255 → n ≤ 1 → assembleLine (lineText mn k j [lx, ly, ls]) = .ok (some (.setpx x y (n == 1)))) ∧
    (4095 < x ∨ 255 < y ∨ 1 < n → ∃ e, assembleLine (lineText mn k j [lx, ly, ls]) = .error e)) ∧
  (∀ (mn lx ly : List Char) (x y k j : Nat) (st : Bool), NumberText lx x → NumberText ly y →
    MnemonicText mn (if st then "PXON" else "PXOFF") →
    (x ≤ 4095 → y ≤ 255 → assembleLine (lineText mn k j [lx, ly]) = .ok (some (.setpx x y st))) ∧
    (4095 < x ∨ 255 < y → ∃ e, assembleLine (lineText mn k j [lx, ly]) = .error e)) ∧
  (∀ (mn li : List Char) (idx k j : Nat), NumberText li idx → MnemonicText mn "RDBIT" →
    (idx ≤ 131071 → assembleLine (lineText mn k j [li]) = .ok (some (.rdbit idx))) ∧
    (131071 < idx → ∃ e, assembleLine (lineText mn k j [li]) = .error e)) ∧
  (∀ mn : List Char, MnemonicText mn "CLEAR" → assembleLine mn = .ok (some .clear)) ∧
  (∀ mn : List Char, MnemonicText mn "SEND" → assembleLine mn = .ok (some .send)) ∧
  (∀ mn rest : List Char, mn ≠ [] → (∀ c ∈ mn, c ≠ ';' ∧ c ≠ ' ' ∧ c ≠ '\t' ∧ c ≠ '\r') →
    (∀ name ∈ ["SETPX", "CLEAR", "SEND", "RDBIT", "PXON", "PXOFF"], ¬ MnemonicText mn name) →
    (rest = [] ∨ ∃ r, rest = ' ' :: r) → ∃ e, assembleLine (mn ++ rest) = .error e) ∧
  (∀ (line comment : List Char) (k : Nat),
    assembleLine (line ++ (List.replicate k ' ' ++ ';' :: comment)) = assembleLine line) ∧
  (∀ (line text : List Char) (i : Instr) (ws : List Word), '\n' ∉ line → assembleLine line = .ok (some i) →
    assemble text = .ok ws → assemble (line ++ '\n' :: text) = .ok (encode i :: ws)) ∧
  ∀ (line : List Char) (i : Instr), assembleLine line = .ok (some i) → i.wellFormed = true

/-! ## The step, the ports and reset -/

/-- 20_memory.md R53, 70_reset_and_hazards.md R153: a running block executes the command the host wrote, and nothing happens
when the host does nothing (the model's choice, assumption log entry 6). -/
def Obligations.StepRunsTheDecodedCommand : Prop :=
  (∀ (s : State) (w : Word) (rest : List HostEvent) (i : Instr),
    s.inputs = .command w :: rest → halted s = false → decode w = .ok i → step s = exec i (s.withInputs rest)) ∧
  (∀ s : State, s.inputs = [] → step s = .next s) ∧
  ∀ (s : State) (i : Instr), i.wellFormed = true → halted s = false →
    step (s.withFetchWord 32 (encode i).toNat) = exec i s

/-- Every command ends in a next state, whatever the state and the operands (60_exceptions.md R130: a fault is the only
exceptional outcome, and R139 makes it a state). -/
def Obligations.EveryCommandEndsInANextState : Prop :=
  ∀ (i : Instr) (s : State), ∃ t, exec i s = .next t

/-- 10_state.md R30: the read port answers 0 `STATUS`, 1 `RDATA`, 2 `FCMD`, at any time, with no effect but its answer; it
refuses 3 to 15. The answer is seen in the model's own log (assumption log entry 9). -/
def Obligations.ReadPortAnswersThreeRegisters : Prop :=
  ∀ (s : State) (n : BitVec 4) (rest : List HostEvent), s.inputs = .read n :: rest →
    (n.toNat < 3 →
      ∃ t, step s = .next t ∧
        t.replies = s.replies ++ [if n = 0#4 then s.status else if n = 1#4 then s.rdata else s.fcmd] ∧
        t.cfg = s.cfg ∧ t.bits = s.bits ∧ t.status = s.status ∧ t.rdata = s.rdata ∧ t.fcmd = s.fcmd ∧
        t.acc = s.acc ∧ t.frames = s.frames ∧ t.inputs = rest ∧ t.draws = s.draws) ∧
    (3 ≤ n.toNat → step s = .refused (.reservedRegister n))

/-- 60_exceptions.md R141: a halted block has no step on a command, still answers reads 0 to 2, and runs again after reset;
a run that ends halted has gone wrong. That the missing step is the fault `halted` is the model's reading (assumption log
entry 7). -/
def Obligations.HaltedBlockAcceptsNoCommand : Prop :=
  ∀ s : State, s.status.getLsbD 0 = true →
    (∀ (w : Word) (rest : List HostEvent), s.inputs = .command w :: rest → step s = .fault .halted) ∧
    (∀ (n : BitVec 4) (rest : List HostEvent), s.inputs = .read n :: rest → n.toNat < 3 →
      ∃ t, step s = .next t ∧ t.replies.length = s.replies.length + 1) ∧
    (∀ (a : Option Word) (rest : List HostEvent), s.inputs = .reset a :: rest →
      ∃ t, step s = .next t ∧ t.status.getLsbD 0 = false) ∧
    goneWrong (.next s) = true

/-- 70_reset_and_hazards.md R150, R152: what reset sets, at any time and whatever command it abandons; the buffer has its
length and nothing is said of its cells or of `ACC`; the configuration is unaffected. -/
def Obligations.ResetSetsTheRegistersAndAbandonsTheCommand : Prop :=
  ∀ (s : State) (a : Option Word) (rest : List HostEvent), s.inputs = .reset a :: rest →
    ∃ t, step s = .next t ∧ t.status = 0#32 ∧ t.rdata = 0#32 ∧ t.fcmd = 0#32 ∧ t.frames = [] ∧
      t.bits.length = s.cfg.nbits ∧ t.cfg = s.cfg ∧ t.inputs = rest ∧
      ∀ b : Option Word, step (s.withInputs (.reset b :: rest)) = .next t

/-- 70_reset_and_hazards.md R151, R153: after power-on, of any legal configuration and of the model's reset state, the
registers are zero, the block runs, and it takes the first command the host writes. -/
def Obligations.PowerOnIsARunningBlock : Prop :=
  (∀ c : Config,
    (State.powerOn c).status = 0#32 ∧ (State.powerOn c).rdata = 0#32 ∧ (State.powerOn c).fcmd = 0#32 ∧
    (State.powerOn c).frames = [] ∧ halted (State.powerOn c) = false ∧ (State.powerOn c).cfg = c ∧
    ∀ w : Word, ∃ t, step ((State.powerOn c).withInputs [.command w]) = .next t) ∧
  State.reset = State.powerOn Config.scenario

/-! ## The index map -/

/-- 40_pixel_buffer.md R82: in every legal configuration the index map of the settable pixels stays in range and is
injective. -/
def Obligations.IndexMapIsInRangeAndInjective : Prop :=
  ∀ (c : Config) (x y : Nat), x < c.columns → y + 2 < c.rows →
    0 ≤ rowFold y ∧ rowFold y < c.rows ∧ 0 ≤ bitIndex c x y ∧ bitIndex c x y < c.nbits ∧
    ∀ x' y' : Nat, x' < c.columns → y' + 2 < c.rows → bitIndex c x y = bitIndex c x' y' → x = x' ∧ y = y'

/-- 40_pixel_buffer.md R83: the fold of the settable rows and the unreached physical rows, per legal `ROWS`. -/
def Obligations.FoldTablePerRowCount : Prop :=
  (List.range (1 - 2)).map rowFold = [] ∧ (List.range 1).filter (rowUnreached 1) = [0] ∧
  (List.range (2 - 2)).map rowFold = [] ∧ (List.range 2).filter (rowUnreached 2) = [0, 1] ∧
  (List.range (7 - 2)).map rowFold = [6, 5, 4, 3, 2] ∧ (List.range 7).filter (rowUnreached 7) = [0, 1] ∧
  (List.range (8 - 2)).map rowFold = [6, 5, 4, 3, 2, 1] ∧ (List.range 8).filter (rowUnreached 8) = [0, 7] ∧
  (List.range (9 - 2)).map rowFold = [6, 5, 4, 3, 2, 1, 0] ∧ (List.range 9).filter (rowUnreached 9) = [7, 8] ∧
  (List.range (16 - 2)).map rowFold = [6, 5, 4, 3, 2, 1, 0, 15, 14, 13, 12, 11, 10, 9] ∧
    (List.range 16).filter (rowUnreached 16) = [7, 8] ∧
  (List.range (17 - 2)).map rowFold = [6, 5, 4, 3, 2, 1, 0, 15, 14, 13, 12, 11, 10, 9, 8] ∧
    (List.range 17).filter (rowUnreached 17) = [7, 16] ∧
  (List.range (18 - 2)).map rowFold = [6, 5, 4, 3, 2, 1, 0, 15, 14, 13, 12, 11, 10, 9, 8, 7] ∧
    (List.range 18).filter (rowUnreached 18) = [16, 17]

/-- 20_memory.md R52: no command but CLEAR changes a cell of an unreached physical row; CLEAR writes it to 0; RDBIT reads it
like any other cell. -/
def Obligations.UnreachedRowsAreWrittenByClearOnly : Prop :=
  ∀ (s : State) (col r : Nat), Memory.wf s.cfg s.bits = true → col < s.cfg.columns → rowUnreached s.cfg.rows r = true →
    (∀ (i : Instr) (t : State), i ≠ .clear → exec i s = .next t →
      bitRead t.bits (r + col * s.cfg.rows) = bitRead s.bits (r + col * s.cfg.rows)) ∧
    (∃ t, exec .clear s = .next t ∧ bitRead t.bits (r + col * s.cfg.rows) = false) ∧
    ∃ t, exec (.rdbit (r + col * s.cfg.rows)) s = .next t ∧ halted t = halted s ∧
      t.rdata.toNat = (bitRead s.bits (r + col * s.cfg.rows)).toNat

/-! ## SETPX, CLEAR, RDBIT -/

/-- 40_pixel_buffer.md R84, R80, R81: a settable SETPX completes, writes the one cell `RowFold(y) + x * ROWS`, and leaves
every other cell and everything else unchanged. -/
def Obligations.SetpxWritesTheOneCellOfItsPixel : Prop :=
  ∀ (s : State) (x y : Nat) (st : Bool), Memory.wf s.cfg s.bits = true → x < s.cfg.columns → y + 2 < s.cfg.rows →
    ∃ t, exec (.setpx x y st) s = .next t ∧
      ((pixelCell s.cfg x y : Nat) : Int) = (if y < 7 then 6 - (y : Int) else 22 - (y : Int)) + (x : Int) * (s.cfg.rows : Int) ∧
      pixelCell s.cfg x y < s.cfg.nbits ∧
      bitRead t.bits (pixelCell s.cfg x y) = st ∧
      (∀ j, j ≠ pixelCell s.cfg x y → bitRead t.bits j = bitRead s.bits j) ∧
      t.bits.length = s.bits.length ∧
      t.cfg = s.cfg ∧ t.status = s.status ∧ t.rdata = s.rdata ∧ t.fcmd = s.fcmd ∧ t.acc = s.acc ∧
      t.frames = s.frames ∧ t.inputs = s.inputs ∧ t.replies = s.replies ∧ t.draws = s.draws

/-- 60_exceptions.md R133: a SETPX outside the coordinate range, the excluded logical rows among them, raises COORD_RANGE
and writes no cell. -/
def Obligations.SetpxOutsideTheGridFaults : Prop :=
  ∀ (s : State) (x y : Nat) (st : Bool), ¬ (x < s.cfg.columns ∧ y + 2 < s.cfg.rows) →
    ∃ t, exec (.setpx x y st) s = .next t ∧ t.status = 0x21#32 ∧ t.fcmd = encode (.setpx x y st) ∧
      t.bits = s.bits ∧ t.cfg = s.cfg ∧ t.rdata = s.rdata ∧ t.acc = s.acc ∧ t.frames = s.frames ∧
      t.inputs = s.inputs ∧ t.replies = s.replies ∧ t.draws = s.draws

/-- 40_pixel_buffer.md R85: CLEAR completes in every state, leaves every cell 0, and changes nothing but the buffer. -/
def Obligations.ClearZeroesEveryCell : Prop :=
  ∀ s : State, ∃ t, exec .clear s = .next t ∧
    t.bits.length = s.cfg.nbits ∧ (∀ j, bitRead t.bits j = false) ∧
    t.cfg = s.cfg ∧ t.status = s.status ∧ t.rdata = s.rdata ∧ t.fcmd = s.fcmd ∧ t.acc = s.acc ∧
    t.frames = s.frames ∧ t.inputs = s.inputs ∧ t.replies = s.replies ∧ t.draws = s.draws

/-- 40_pixel_buffer.md R86: a RDBIT of a valid index completes, gives `RDATA` the cell zero-extended, and changes nothing
else. -/
def Obligations.RdbitReadsOneCell : Prop :=
  ∀ (s : State) (idx : Nat), Memory.wf s.cfg s.bits = true → idx < s.cfg.nbits →
    ∃ (t : State) (b : Bool), exec (.rdbit idx) s = .next t ∧ s.bits[idx]? = some b ∧
      t.rdata = (if b then 1#32 else 0#32) ∧
      t.bits = s.bits ∧ t.cfg = s.cfg ∧ t.status = s.status ∧ t.fcmd = s.fcmd ∧ t.acc = s.acc ∧
      t.frames = s.frames ∧ t.inputs = s.inputs ∧ t.replies = s.replies ∧ t.draws = s.draws

/-- 60_exceptions.md R134: a RDBIT of an invalid index raises INDEX_RANGE and does not write `RDATA`. -/
def Obligations.RdbitOfAnInvalidIndexFaults : Prop :=
  ∀ (s : State) (idx : Nat), s.cfg.nbits ≤ idx →
    ∃ t, exec (.rdbit idx) s = .next t ∧ t.status = 0x31#32 ∧ t.fcmd = encode (.rdbit idx) ∧
      t.rdata = s.rdata ∧ t.bits = s.bits ∧ t.cfg = s.cfg ∧ t.acc = s.acc ∧ t.frames = s.frames ∧
      t.inputs = s.inputs ∧ t.replies = s.replies ∧ t.draws = s.draws

/-- 40_pixel_buffer.md R87, its five laws in order. -/
def Obligations.BufferLaws : Prop :=
  ∀ s : State, Memory.wf s.cfg s.bits = true →
    (∀ (x y : Nat) (st : Bool), x < s.cfg.columns → y + 2 < s.cfg.rows →
      ∃ t, runInstrs [.setpx x y st, .rdbit (pixelCell s.cfg x y)] s = .next t ∧ t.rdata = if st then 1#32 else 0#32) ∧
    (∀ x y : Nat, x < s.cfg.columns → y + 2 < s.cfg.rows →
      ∃ t, runInstrs [.setpx x y true, .setpx x y false] s = .next t ∧ bitRead t.bits (pixelCell s.cfg x y) = false ∧
        ∀ j, j ≠ pixelCell s.cfg x y → bitRead t.bits j = bitRead s.bits j) ∧
    (∀ (x y x' y' : Nat) (st st' : Bool), x < s.cfg.columns → y + 2 < s.cfg.rows → x' < s.cfg.columns →
      y' + 2 < s.cfg.rows → (x, y) ≠ (x', y') →
      runInstrs [.setpx x y st, .setpx x' y' st'] s = runInstrs [.setpx x' y' st', .setpx x y st] s) ∧
    (∀ (x y : Nat) (st : Bool), x < s.cfg.columns → y + 2 < s.cfg.rows →
      runInstrs [.setpx x y st, .setpx x y st] s = runInstrs [.setpx x y st] s) ∧
    ∀ ps : List (Nat × Nat × Bool), (∀ p ∈ ps, p.1 < s.cfg.columns ∧ p.2.1 + 2 < s.cfg.rows) →
      ∃ t, runInstrs (.clear :: ps.map fun p => .setpx p.1 p.2.1 p.2.2) s = .next t ∧
        ∀ col r : Nat, col < s.cfg.columns → rowUnreached s.cfg.rows r = true →
          bitRead t.bits (r + col * s.cfg.rows) = false

/-- The block is a grid of pixels: through the index map, SETPX sets exactly the pixel it names, CLEAR clears every pixel,
and RDBIT and SEND change no pixel (40_pixel_buffer.md R82, R84, R85, R86; 41_packet_codec.md R109). -/
def Obligations.CommandsActOnTheLogicalGrid : Prop :=
  ∀ (s : State) (x' y' : Nat), Memory.wf s.cfg s.bits = true → x' < s.cfg.columns → y' + 2 < s.cfg.rows →
    (∀ (x y : Nat) (st : Bool), x < s.cfg.columns → y + 2 < s.cfg.rows →
      ∃ t, exec (.setpx x y st) s = .next t ∧
        gridPixel t x' y' = if x' = x ∧ y' = y then st else gridPixel s x' y') ∧
    (∃ t, exec .clear s = .next t ∧ gridPixel t x' y' = false) ∧
    (∃ t, exec .send s = .next t ∧ gridPixel t x' y' = gridPixel s x' y') ∧
    ∀ idx : Nat, ∃ t, exec (.rdbit idx) s = .next t ∧ gridPixel t x' y' = gridPixel s x' y'

/-- 20_memory.md R51: repeating a command other than SEND, once it has completed, changes nothing; repeating SEND emits the
same frame once more. -/
def Obligations.EveryCommandButSendIsIdempotent : Prop :=
  (∀ (i : Instr) (s t : State), i ≠ .send → exec i s = .next t → halted t = false → exec i t = .next t) ∧
  ∀ s t : State, exec .send s = .next t → halted t = false →
    ∃ (u : State) (f : List Byte), exec .send t = .next u ∧ t.frames = s.frames ++ [f] ∧ u.frames = t.frames ++ [f] ∧
      u.bits = s.bits

/-! ## The codec and SEND -/

/-- 41_packet_codec.md R100: the characters of the hex digits. -/
def Obligations.HexDigitsAreUppercaseAscii : Prop :=
  ∀ d : BitVec 4,
    (d.toNat ≤ 9 → (hexDigit d).toNat = 0x30 + d.toNat) ∧ (10 ≤ d.toNat → (hexDigit d).toNat = 0x41 + (d.toNat - 10))

/-- 41_packet_codec.md R101: an encoded byte is the character of its high nibble, then that of its low nibble, so that no
two bytes share an encoding; with the source's three examples. -/
def Obligations.HexEncodeWritesHighNibbleFirst : Prop :=
  (∀ v : Byte, hexEncode v = [hexDigit (BitVec.ofNat 4 (v.toNat / 16)), hexDigit (BitVec.ofNat 4 (v.toNat % 16))]) ∧
  (∀ v v' : Byte, hexEncode v = hexEncode v' → v = v') ∧
  hexEncode 0x67#8 = [0x36#8, 0x37#8] ∧ hexEncode 0x00#8 = [0x30#8, 0x30#8] ∧ hexEncode 0xFF#8 = [0x46#8, 0x46#8]

/-- 20_memory.md R44: where each cell of a group stands in its byte, in both orders. -/
def Obligations.PackPlacesEachCellByTheOrder : Prop :=
  ∀ (bits : List Bool) (k j : Nat), j < 8 →
    (packByte .msbFirst bits k).getLsbD (7 - j) = bitRead bits (8 * k + j) ∧
    (packByte .lsbFirst bits k).getLsbD j = bitRead bits (8 * k + j)

/-- 20_memory.md R45: unpacking inverts packing, in both orders, for every buffer whose length is a multiple of 8. -/
def Obligations.UnpackInvertsPack : Prop :=
  (∀ (ds : List Byte) (k j : Nat) (d : Byte), ds[k]? = some d → j < 8 →
    (unpack .msbFirst ds)[8 * k + j]? = some (d.getLsbD (7 - j)) ∧
    (unpack .lsbFirst ds)[8 * k + j]? = some (d.getLsbD j)) ∧
  ∀ (o : PackOrder) (bits : List Bool), bits.length % 8 = 0 → unpack o (pack o (bits.length / 8) bits) = bits

/-- 41_packet_codec.md R104 to R107: the accumulator holds the sum of the bytes modulo 256, finalising it gives the checksum
function of R107, and that value balances `CSUM`. -/
def Obligations.AccumulatorComputesTheChecksumFunction : Prop :=
  ∀ bs : List Byte,
    (accumulate bs).toNat = byteSum bs % 256 ∧
    (finalise (accumulate bs)).toNat = checksumOf bs ∧
    checksumOf bs = (256 - (byteSum bs + 1) % 256) % 256 ∧
    ((csumOf (accumulate bs)).toNat + (finalise (accumulate bs)).toNat) % 256 = 0

/-- 41_packet_codec.md R108, R109: on a block that can be framed, SEND completes and emits one frame with every byte at its
position; `ACC` holds the sum of the bytes before ETX; nothing else changes. -/
def Obligations.SendEmitsOneFrameInItsLayout : Prop :=
  ∀ s : State, s.cfg.address + 17 < 256 → s.cfg.nbits % 8 = 0 → s.cfg.nbits / 8 < 256 →
    ∃ (t : State) (f : List Byte), exec .send s = .next t ∧ t.frames = s.frames ++ [f] ∧
      f.length = 8 + 2 * (s.cfg.nbits / 8) ∧
      f[0]? = some 0x02#8 ∧
      f[1]? = some (hexDigit (BitVec.ofNat 4 ((s.cfg.address + 17) / 16))) ∧
      f[2]? = some (hexDigit (BitVec.ofNat 4 ((s.cfg.address + 17) % 16))) ∧
      f[3]? = some (hexDigit (BitVec.ofNat 4 (s.cfg.nbits / 8 / 16))) ∧
      f[4]? = some (hexDigit (BitVec.ofNat 4 (s.cfg.nbits / 8 % 16))) ∧
      (∀ k, k < s.cfg.nbits / 8 →
        f[5 + 2 * k]? = some (hexDigit (BitVec.ofNat 4 ((packByte s.cfg.packOrder s.bits k).toNat / 16))) ∧
        f[6 + 2 * k]? = some (hexDigit (BitVec.ofNat 4 ((packByte s.cfg.packOrder s.bits k).toNat % 16)))) ∧
      f[5 + 2 * (s.cfg.nbits / 8)]? = some 0x03#8 ∧
      f[6 + 2 * (s.cfg.nbits / 8)]? =
        some (hexDigit (BitVec.ofNat 4 (checksumOf (f.take (5 + 2 * (s.cfg.nbits / 8))) / 16))) ∧
      f[7 + 2 * (s.cfg.nbits / 8)]? =
        some (hexDigit (BitVec.ofNat 4 (checksumOf (f.take (5 + 2 * (s.cfg.nbits / 8))) % 16))) ∧
      t.acc.toNat = byteSum (f.take (5 + 2 * (s.cfg.nbits / 8))) % 256 ∧
      t.bits = s.bits ∧ t.cfg = s.cfg ∧ t.status = s.status ∧ t.rdata = s.rdata ∧ t.fcmd = s.fcmd ∧
      t.inputs = s.inputs ∧ t.replies = s.replies ∧ t.draws = s.draws

/-- 60_exceptions.md R135 to R138: SEND's three faults, in their order; a faulting SEND emits nothing. -/
def Obligations.SendFaultsInItsOrder : Prop :=
  ∀ s : State, ¬ (s.cfg.address + 17 < 256 ∧ s.cfg.nbits % 8 = 0 ∧ s.cfg.nbits / 8 < 256) →
    ∃ t, exec .send s = .next t ∧
      t.status = (if 256 ≤ s.cfg.address + 17 then 0x41#32 else if s.cfg.nbits % 8 ≠ 0 then 0x51#32 else 0x61#32) ∧
      t.fcmd = 0x30000000#32 ∧ t.frames = s.frames ∧ t.bits = s.bits ∧ t.cfg = s.cfg ∧ t.rdata = s.rdata ∧
      t.acc = s.acc ∧ t.inputs = s.inputs ∧ t.replies = s.replies ∧ t.draws = s.draws

/-- 41_packet_codec.md R111: the length of a frame, its characters, and that STX and ETX stand at their positions only. -/
def Obligations.FramesHaveTheirLengthAndCharacters : Prop :=
  (∀ s t : State, exec .send s = .next t → halted t = false →
    ∃ f, t.frames = s.frames ++ [f] ∧ f.length = 8 + 2 * s.cfg.nbytes ∧
      ∀ (p : Nat) (b : Byte), f[p]? = some b →
        (p ≠ 0 → p ≠ 5 + 2 * s.cfg.nbytes → isHexChar b = true) ∧
        (b = 0x02#8 ↔ p = 0) ∧ (b = 0x03#8 ↔ p = 5 + 2 * s.cfg.nbytes)) ∧
  8 + 2 * Config.scenario.nbytes = 88

/-- 41_packet_codec.md R110: the checksum law of every frame a SEND emits, in both forms; the source's section 8 restatement
is off by 3 for every frame (90_conflicts.md C1). -/
def Obligations.EveryFrameBalancesItsChecksum : Prop :=
  ∀ s t : State, exec .send s = .next t → halted t = false →
    ∃ (f : List Byte) (cs : Byte), t.frames = s.frames ++ [f] ∧ f.drop (6 + 2 * s.cfg.nbytes) = hexEncode cs ∧
      (byteSum ((f.drop 1).take (4 + 2 * s.cfg.nbytes)) + 0x03 + cs.toNat) % 256 = 0 ∧
      (byteSum (f.take (5 + 2 * s.cfg.nbytes)) + 1 + cs.toNat) % 256 = 0 ∧
      (byteSum (f.take (5 + 2 * s.cfg.nbytes)) + 1 + 0x03 + cs.toNat) % 256 = 3

/-- 41_packet_codec.md R112: a frame depends on the configuration and on `BITS` alone; SEND writes `ACC` and the frame port
only, unless it faults. -/
def Obligations.FrameDependsOnConfigurationAndBufferOnly : Prop :=
  ∀ s s' t t' : State, s.cfg = s'.cfg → s.bits = s'.bits → halted s = false → halted s' = false →
    exec .send s = .next t → exec .send s' = .next t' →
    (halted t = halted t') ∧
    (halted t = false → ∃ f, t.frames = s.frames ++ [f] ∧ t'.frames = s'.frames ++ [f] ∧
      t = { s with acc := t.acc, frames := s.frames ++ [f] } ∧ t.acc = t'.acc)

/-- A frame loses nothing of the buffer: two blocks of one configuration that emit the same frame hold the same cells
(20_memory.md R44, R45; 41_packet_codec.md R101, R108). -/
def Obligations.FrameDeterminesTheBuffer : Prop :=
  ∀ (s s' t t' : State) (f : List Byte), s.cfg = s'.cfg → Memory.wf s.cfg s.bits = true → Memory.wf s'.cfg s'.bits = true →
    exec .send s = .next t → exec .send s' = .next t' → t.frames = s.frames ++ [f] → t'.frames = s'.frames ++ [f] →
    s.bits = s'.bits

/-! ## Faults -/

/-- 60_exceptions.md R139: a command that faults leaves FAULT 1, the code of the cause it raised, and its own word in `FCMD`.
The cause is the one R131 gives the command: ILLEGAL_CMD for an ILLEGAL word, COORD_RANGE for SETPX, INDEX_RANGE for RDBIT,
the first failing check for SEND; CLEAR raises none. -/
def Obligations.FaultEntryRecordsCauseAndWord : Prop :=
  ∀ (s t : State) (w : Word) (rest : List HostEvent), s.inputs = .command w :: rest → halted s = false →
    step s = .next t → halted t = true →
      t.fcmd = w ∧ t.status.getLsbD 0 = true ∧
      ∃ c : FaultCause, causeRaised s.cfg (decode w) = some c ∧ t.status = (c.code.setWidth 32 <<< 4) ||| 1#32

/-- 60_exceptions.md R140: a command that faults writes nothing but `STATUS` and `FCMD`. -/
def Obligations.FaultsArePrecise : Prop :=
  ∀ (s t : State) (w : Word) (rest : List HostEvent), s.inputs = .command w :: rest → halted s = false →
    step s = .next t → halted t = true →
      t = { s with status := t.status, fcmd := t.fcmd, inputs := rest }

/-- 60_exceptions.md R142: no command clears a fault and none overwrites the first one; only reset does. -/
def Obligations.OnlyResetLeavesAFault : Prop :=
  ∀ s t : State, halted s = true → step s = .next t →
    (t.status = s.status ∧ t.fcmd = s.fcmd) ∨
    ∃ (a : Option Word) (rest : List HostEvent), s.inputs = .reset a :: rest ∧ halted t = false

/-- 10_state.md R21, R25, R26, R27, R29: the only writers of each piece of state. A step that changes it is a reset, or a
command of the kind named; `STATUS` and `FCMD` change by fault entry only. -/
def Obligations.EachRegisterHasItsWritersOnly : Prop :=
  ∀ s t : State, step s = .next t →
    (∃ (a : Option Word) (rest : List HostEvent), s.inputs = .reset a :: rest) ∨
    (t.rdata ≠ s.rdata →
      ∃ (w : Word) (rest : List HostEvent) (idx : Nat), s.inputs = .command w :: rest ∧ decode w = .ok (.rdbit idx)) ∧
    (t.bits ≠ s.bits →
      ∃ (w : Word) (rest : List HostEvent), s.inputs = .command w :: rest ∧
        (decode w = .ok .clear ∨ ∃ x y st, decode w = .ok (.setpx x y st))) ∧
    (t.frames ≠ s.frames ∨ t.acc ≠ s.acc →
      ∃ (w : Word) (rest : List HostEvent), s.inputs = .command w :: rest ∧ decode w = .ok .send) ∧
    (t.status ≠ s.status ∨ t.fcmd ≠ s.fcmd → halted s = false ∧ halted t = true)

/-! ## Invariants and runs -/

/-- The invariant holds after every reset, of every legal configuration, and at the model's reset state. -/
def Obligations.ResetMeetsTheInvariant : Prop :=
  (∀ (c : Config) (draw : Nat) (es : List HostEvent), (State.afterReset c draw es).Inv) ∧ State.reset.Inv

/-- Every step keeps the invariant: the buffer keeps its `NBITS` cells, the registers their legal values, and every emitted
frame is whole and balances (10_state.md R21, R22, R25, R26, R27, R29; 41_packet_codec.md R108, R110, R111). -/
def Obligations.StepKeepsTheInvariant : Prop :=
  ∀ s t : State, s.Inv → step s = .next t → t.Inv

/-- Every run meets the invariant: from a reset of any legal configuration, with any draw of the buffer, by any sequence of
command words (70_reset_and_hazards.md R152, R160). The invariant rests on 10_state.md R21, R22, R25 to R27, R29 and
41_packet_codec.md R108, R110, R111. -/
def Obligations.EveryRunMeetsTheInvariant : Prop :=
  ∀ (c : Config) (draw : Nat) (bits : List Bool) (ws : List Word) (t : State), bits.length = c.nbits →
    runCommands ws ((State.afterReset c draw []).withBits bits) = .next t → t.Inv

/-- 10_state.md R22: no step changes the number of cells; 10_state.md R34: no step changes the configuration. -/
def Obligations.BufferLengthAndConfigurationNeverChange : Prop :=
  ∀ s t : State, Memory.wf s.cfg s.bits = true → step s = .next t → t.bits.length = s.bits.length ∧ t.cfg = s.cfg

/-- 10_state.md R29, 20_memory.md R54: a run that has not gone wrong has emitted, after the frames before it, exactly one
frame per SEND, in the order of the SENDs: the frame of each SEND is that of the configuration and of the buffer which the
commands before it left. -/
def Obligations.RunEmitsOneFramePerSend : Prop :=
  ∀ (ws : List Word) (s t : State), halted s = false → runCommands ws s = .next t → halted t = false →
    ∃ fs : List (List Byte), t.frames = s.frames ++ fs ∧ fs.length = ws.count 0x30000000#32 ∧
      ∀ before after : List Word, ws = before ++ 0x30000000#32 :: after →
        ∃ u : State, runCommands before s = .next u ∧ fs[before.count 0x30000000#32]? = some (frameOf u.cfg u.bits)

/-- 70_reset_and_hazards.md R154: after one CLEAR nothing that is seen of a run depends on what the buffer and the
accumulator held before it. -/
def Obligations.ClearMakesTheRunIndependentOfTheDraw : Prop :=
  ∀ (s : State) (bits : List Bool) (acc : Byte) (ws : List Word),
    observeOutcome (runCommands (0x20000000#32 :: ws) s) =
      observeOutcome (runCommands (0x20000000#32 :: ws) { s with bits := bits, acc := acc })

/-- 10_state.md R28: the value of `ACC` between commands is never seen. -/
def Obligations.AccumulatorIsNeverObserved : Prop :=
  ∀ (s : State) (acc : Byte) (ws : List Word),
    observeOutcome (runCommands ws s) = observeOutcome (runCommands ws { s with acc := acc })

/-- 70_reset_and_hazards.md R160, 20_memory.md R53: a run is its commands stepped one by one. From any state, and from the
start of a run, the machine's steps on the words the host wrote reach the state the run ends in. -/
def Obligations.RunIsTheStepsOfItsCommands : Prop :=
  (∀ (ws : List Word) (s t : State), runCommands ws (s.withInputs []) = .next t →
    Sys2Proof.core.run ws.length (s.withInputs (ws.map .command)) = .next t) ∧
  ∀ (c : Config) (draw : Nat) (ws : List Word) (t : State), runCommands ws (State.start c draw []) = .next t →
    Sys2Proof.core.run ws.length (State.start c draw ws) = .next t
end

