-- ==== Sys2Proof/Laws/Assembler.lean ====
section
/-! SUPPORT. The parts of the assembler: what each gives on the texts of 30_encoding.md R69. -/

namespace Sys2Proof.Machine

/-- A character that can stand inside a mnemonic or a number: no white space, comma or semicolon. -/
def asmPlain (c : Char) : Bool := !asmBlank c && c != ',' && c != ';'

theorem asmBlank_of_plain {c : Char} (h : asmPlain c = true) : asmBlank c = false := by
  simp [asmPlain] at h; simp [h]

/-! ### Numbers -/

/-- Digits written by `ch`, each with the value `val`, read as the number they write. -/
theorem asmDigits_eq_ofDigits {α : Type} {base : Nat} (ch : α → Char) (val : α → Nat) {ds : List α} (hne : ds ≠ [])
    (hd : ∀ d ∈ ds, asmDigit base (ch d) = some (val d)) :
    asmDigits base (ds.map ch) = some (Nat.ofDigits base (ds.map val).reverse) := by
  have fold : ∀ (ds : List α) (a : Nat), (∀ d ∈ ds, asmDigit base (ch d) = some (val d)) →
      (ds.map ch).foldl (fun acc c => acc.bind fun n => (asmDigit base c).map fun d => n * base + d) (some a) =
        some ((ds.map val).foldl (fun n d => n * base + d) a) := by
    intro ds
    induction ds with
    | nil => intro a _; rfl
    | cons d ds ih =>
      intro a h
      have hd := h d (by simp)
      simpa [hd] using ih (a * base + val d) (fun e he => h e (by simp [he]))
  have value : (ds.map val).foldl (fun n d => n * base + d) 0 = Nat.ofDigits base (ds.map val).reverse := by
    rw [Nat.ofDigits_eq_foldr, List.foldr_reverse]
    congr 1
    funext n d
    simp [Nat.mul_comm, Nat.add_comm]
  cases ds with
  | nil => exact absurd rfl hne
  | cons d ds =>
    rw [← value]
    exact fold (d :: ds) 0 hd

theorem asmDigit_ten : ∀ d, d < 10 → asmDigit 10 (Nat.digitChar d) = some d := by decide

theorem asmDigit_sixteen : ∀ d, d < 16 → ∀ up : Bool,
    asmDigit 16 (if up then (Nat.digitChar d).toUpper else Nat.digitChar d) = some d := by decide

theorem asmPlain_digitChar : ∀ d, d < 16 → ∀ up : Bool,
    asmPlain (if up then (Nat.digitChar d).toUpper else Nat.digitChar d) = true := by decide

/-- The text of a number is read as that number. -/
theorem asmNumber_of_text {l : List Char} {n : Nat} (h : NumberText l n) : asmNumber l = some n := by
  rcases h with ⟨ds, hne, hd, rfl, rfl⟩ | ⟨ds, hne, hd, rfl, rfl⟩
  · have hx : ∀ d, d < 10 → Nat.digitChar d ≠ 'x' := by decide
    have hr := asmDigits_eq_ofDigits (base := 10) Nat.digitChar id hne (fun d h => asmDigit_ten d (hd d h))
    rw [List.map_id] at hr
    rw [← hr]
    match ds, hd with
    | [], _ => rfl
    | [d], _ => simp [asmNumber]
    | d :: e :: ds, hd =>
      have he : Nat.digitChar e ≠ 'x' := hx e (hd e (by simp))
      simp [asmNumber, he]
  · simp only [asmNumber]
    exact asmDigits_eq_ofDigits _ Prod.fst hne (fun d h => asmDigit_sixteen d.1 (hd d h) d.2)

theorem numberText_plain {l : List Char} {n : Nat} (h : NumberText l n) : l ≠ [] ∧ ∀ c ∈ l, asmPlain c = true := by
  rcases h with ⟨ds, hne, hd, rfl, rfl⟩ | ⟨ds, hne, hd, rfl, rfl⟩
  · refine ⟨by simpa using hne, ?_⟩
    simp only [List.mem_map, forall_exists_index, and_imp, forall_apply_eq_imp_iff₂]
    intro d hm
    exact asmPlain_digitChar d (by have := hd d hm; omega) false
  · refine ⟨by simp, ?_⟩
    simp only [List.mem_cons, List.mem_map, forall_eq_or_imp, forall_exists_index, and_imp, forall_apply_eq_imp_iff₂]
    exact ⟨by decide, by decide, fun d hm => asmPlain_digitChar d.1 (hd d hm) d.2⟩

/-! ### Comments, white space and commas -/

theorem asmStripComment_comment (line comment : List Char) :
    asmStripComment (line ++ ';' :: comment) = asmStripComment line := by
  induction line with
  | nil => rfl
  | cons c l ih =>
    simp only [asmStripComment, List.cons_append, List.takeWhile_cons] at ih ⊢
    rw [ih]

theorem asmStripComment_of_none {l : List Char} (h : ∀ c ∈ l, c ≠ ';') : asmStripComment l = l := by
  rw [asmStripComment, List.takeWhile_eq_self_iff]
  intro c hc
  simpa using h c hc

/-- A text that begins and ends with no white space is its own trim. -/
theorem asmTrim_of_ends {l : List Char} (hh : ∀ c ∈ l.head?, asmBlank c = false)
    (hl : ∀ c ∈ l.getLast?, asmBlank c = false) : asmTrim l = l := by
  have drop : ∀ m : List Char, (∀ c ∈ m.head?, asmBlank c = false) → m.dropWhile asmBlank = m := by
    intro m hm
    cases m with
    | nil => rfl
    | cons c m => simp [hm c (by simp)]
  unfold asmTrim
  rw [drop l hh, drop l.reverse (by simpa using hl), List.reverse_reverse]

theorem asmTrim_spaces (k : Nat) (l : List Char) : asmTrim (List.replicate k ' ' ++ l) = asmTrim l := by
  induction k with
  | zero => rfl
  | succ k ih => simpa [asmTrim, List.replicate_succ, asmBlank] using ih

theorem asmTrim_of_plain {l : List Char} (h : ∀ c ∈ l, asmPlain c = true) : asmTrim l = l :=
  asmTrim_of_ends (fun c hc => asmBlank_of_plain (h c (List.mem_of_head? hc)))
    (fun c hc => asmBlank_of_plain (h c (List.mem_of_getLast? hc)))

theorem asmSplit_of_none {sep : Char} {l : List Char} (h : sep ∉ l) : asmSplit sep l = [l] := by
  induction l with
  | nil => rfl
  | cons c l ih =>
    simp only [List.mem_cons, not_or] at h
    simp [asmSplit, Ne.symm h.1, ih h.2]

theorem asmSplit_append {sep : Char} {l : List Char} (h : sep ∉ l) (rest : List Char) :
    asmSplit sep (l ++ sep :: rest) = l :: asmSplit sep rest := by
  induction l with
  | nil => simp [asmSplit]
  | cons c l ih =>
    simp only [List.mem_cons, not_or] at h
    simp [asmSplit, Ne.symm h.1, ih h.2]

/-! ### Lines -/

theorem mnemonic_plain : ∀ name ∈ ["SETPX", "CLEAR", "SEND", "RDBIT", "PXON", "PXOFF"],
    name.toList ≠ [] ∧ ∀ c ∈ name.toList, asmPlain c = true := by
  have spelled : ∀ l : List Char, l.isEmpty = false → l.all asmPlain = true → l ≠ [] ∧ ∀ c ∈ l, asmPlain c = true :=
    fun l h h' => ⟨by simpa using h, List.all_eq_true.1 h'⟩
  intro name hm
  simp only [List.mem_cons, List.not_mem_nil, or_false] at hm
  rcases hm with rfl | rfl | rfl | rfl | rfl | rfl <;> exact spelled _ rfl rfl

/-- A text of a mnemonic of R69 or R70, in any case, is plain. -/
theorem mnemonicText_plain {mn : List Char} {name : String} (h : MnemonicText mn name)
    (hm : name ∈ ["SETPX", "CLEAR", "SEND", "RDBIT", "PXON", "PXOFF"]) : mn ≠ [] ∧ ∀ c ∈ mn, asmPlain c = true := by
  have hn := mnemonic_plain name hm
  unfold MnemonicText at h
  constructor
  · rintro rfl
    exact hn.1 h.symm
  · intro c hc
    have hu : asmPlain c.toUpper = true := hn.2 _ (by rw [← h]; exact List.mem_map_of_mem hc)
    by_contra hp
    simp only [asmPlain, asmBlank, Bool.and_eq_true, Bool.not_eq_true', Bool.or_eq_false_iff, beq_eq_false_iff_ne, bne_iff_ne,
      not_and_or, not_not] at hp
    rcases hp with (((hp | hp) | hp) | hp) | hp <;> subst hp <;> exact absurd hu (by decide)

/-- A line of a mnemonic and what follows it after white space, without a comment and with no white space at its end. -/
theorem assembleLine_eq {mn rest : List Char} (hm : mn ≠ [] ∧ ∀ c ∈ mn, asmPlain c = true)
    (hs : ∀ c ∈ rest.head?, asmBlank c = true) (hc : ∀ c ∈ rest, c ≠ ';')
    (hl : ∀ c ∈ rest.getLast?, asmBlank c = false) :
    assembleLine (mn ++ rest) = asmFinish (mn.map Char.toUpper) (asmNumbers (asmOperands rest)) := by
  obtain ⟨hne, hp⟩ := hm
  obtain ⟨a, m, rfl⟩ : ∃ a m, mn = a :: m := List.exists_cons_of_ne_nil hne
  have hstrip : asmStripComment (a :: m ++ rest) = a :: m ++ rest := by
    apply asmStripComment_of_none
    intro c hmem
    rcases List.mem_append.1 hmem with h | h
    · have := hp c h; simp [asmPlain] at this; exact this.2
    · exact hc c h
  have htrim : asmTrim (a :: m ++ rest) = a :: m ++ rest := by
    apply asmTrim_of_ends
    · intro c hmem
      simp at hmem
      subst hmem
      exact asmBlank_of_plain (hp _ (by simp))
    · intro c hmem
      rw [List.getLast?_append] at hmem
      cases hr : rest.getLast? with
      | none =>
        rw [hr] at hmem
        exact asmBlank_of_plain (hp c (List.mem_of_getLast? (by simpa using hmem)))
      | some d =>
        rw [hr] at hmem
        simp at hmem
        subst hmem
        exact hl _ hr
  have hb : ∀ c ∈ a :: m, (!asmBlank c) = true := fun c h => by simp [asmBlank_of_plain (hp c h)]
  have htake : (a :: m ++ rest).takeWhile (fun c => !asmBlank c) = a :: m := by
    rw [List.takeWhile_append_of_pos hb]
    cases rest with
    | nil => simp
    | cons c r => simp [hs c (by simp)]
  have hdrop : (a :: m ++ rest).dropWhile (fun c => !asmBlank c) = rest := by
    rw [List.dropWhile_append_of_pos hb]
    cases rest with
    | nil => rfl
    | cons c r => simp [hs c (by simp)]
  unfold assembleLine
  simp only [hstrip, htrim, htake, hdrop]
  rw [if_neg (by simp)]

/-- The operands of `lineText`, as `asmOperands` finds them. -/
theorem asmSplit_operands {j : Nat} {l : List Char} {ls : List (List Char)} (hl : ',' ∉ l) (hs : ∀ m ∈ ls, ',' ∉ m) :
    asmSplit ',' (l ++ ls.flatMap fun m => ',' :: (List.replicate j ' ' ++ m)) =
      l :: ls.map fun m => List.replicate j ' ' ++ m := by
  induction ls generalizing l with
  | nil => simpa using asmSplit_of_none hl
  | cons m ls ih =>
    have hm : ',' ∉ List.replicate j ' ' ++ m := by simpa using hs m (by simp)
    have := ih hm (fun m' h => hs m' (by simp [h]))
    simp only [List.flatMap_cons, List.cons_append, List.map_cons]
    rw [asmSplit_append hl, this]

theorem asmNumbers_of_texts {ls : List (List Char)} {ns : List Nat} (h : List.Forall₂ NumberText ls ns) :
    asmNumbers ls = some ns := by
  induction h with
  | nil => rfl
  | cons hn _ ih => simp [asmNumbers, asmNumber_of_text hn, ih]

theorem numberTexts_plain {ls : List (List Char)} {ns : List Nat} (h : List.Forall₂ NumberText ls ns) :
    ∀ m ∈ ls, m ≠ [] ∧ ∀ c ∈ m, asmPlain c = true := by
  induction h with
  | nil => simp
  | cons hn _ ih => simpa using ⟨numberText_plain hn, ih⟩

/-- A mnemonic with the texts of its operands is read as that mnemonic with those numbers. -/
theorem assembleLine_lineText {mn l : List Char} {ls : List (List Char)} {ns : List Nat}
    (hm : mn ≠ [] ∧ ∀ c ∈ mn, asmPlain c = true) (h : List.Forall₂ NumberText (l :: ls) ns) (k j : Nat) :
    assembleLine (lineText mn k j (l :: ls)) = asmFinish (mn.map Char.toUpper) (some ns) := by
  have plain := numberTexts_plain h
  have noComma : ∀ m ∈ l :: ls, ',' ∉ m := fun m hmem hc => absurd ((plain m hmem).2 _ hc) (by decide)
  have ends : ∀ c ∈ (l ++ ls.flatMap fun m => ',' :: (List.replicate j ' ' ++ m)).getLast?, asmBlank c = false := by
    have last : ∀ (p m : List Char), (m ≠ [] ∧ ∀ c ∈ m, asmPlain c = true) →
        ∀ c ∈ (p ++ m).getLast?, asmBlank c = false := by
      intro p m hp c hc
      rw [List.getLast?_append, List.getLast?_eq_some_getLast hp.1] at hc
      simp only [Option.some_or, Option.mem_def, Option.some.injEq] at hc
      subst hc
      exact asmBlank_of_plain (hp.2 _ (List.getLast_mem hp.1))
    rcases List.eq_nil_or_concat ls with rfl | ⟨p, m, rfl⟩
    · simpa using last [] l (plain l (by simp))
    · have := last (l ++ (p.flatMap (fun m => ',' :: (List.replicate j ' ' ++ m)) ++ (',' :: List.replicate j ' '))) m
        (plain m (by simp))
      simpa using this
  have trimmed : asmTrim (l ++ ls.flatMap fun m => ',' :: (List.replicate j ' ' ++ m)) =
      l ++ ls.flatMap fun m => ',' :: (List.replicate j ' ' ++ m) := by
    obtain ⟨a, m, rfl⟩ := List.exists_cons_of_ne_nil (plain l (by simp)).1
    refine asmTrim_of_ends ?_ ends
    intro c hc
    simp only [List.cons_append, List.head?_cons, Option.mem_def, Option.some.injEq] at hc
    subst hc
    exact asmBlank_of_plain ((plain (a :: m) (by simp)).2 a (by simp))
  have operands : asmOperands (List.replicate (k + 1) ' ' ++ (l ++ ls.flatMap fun m => ',' :: (List.replicate j ' ' ++ m))) =
      l :: ls := by
    have hne : asmTrim (List.replicate (k + 1) ' ' ++ (l ++ ls.flatMap fun m => ',' :: (List.replicate j ' ' ++ m))) ≠ [] := by
      rw [asmTrim_spaces, trimmed]
      simp [(plain l (by simp)).1]
    have hl : ',' ∉ List.replicate (k + 1) ' ' ++ l := by simpa using noComma l (by simp)
    rw [asmOperands, if_neg hne, ← List.append_assoc, asmSplit_operands hl (fun m hmem => noComma m (by simp [hmem]))]
    simp only [List.map_cons, List.map_map, asmTrim_spaces, asmTrim_of_plain (plain l (by simp)).2, List.cons.injEq, true_and]
    conv_rhs => rw [← List.map_id ls]
    apply List.map_congr_left
    intro m hmem
    simp only [Function.comp, asmTrim_spaces, id]
    exact asmTrim_of_plain (plain m (by simp [hmem])).2
  rw [lineText, assembleLine_eq hm, operands, asmNumbers_of_texts h]
  · simp [List.replicate_succ, asmBlank]
  · have hsemi : ∀ m ∈ l :: ls, ∀ c ∈ m, c ≠ ';' := by
      rintro m hmem c hc rfl
      exact absurd ((plain m hmem).2 _ hc) (by decide)
    intro c hc
    simp only [List.mem_append, List.mem_replicate, List.mem_flatMap, List.mem_cons] at hc
    rcases hc with ⟨_, rfl⟩ | hc | ⟨m, hmem, rfl | ⟨_, rfl⟩ | hc⟩
    · decide
    · exact hsemi l (by simp) c hc
    · decide
    · decide
    · exact hsemi m (by simp [hmem]) c hc
  · intro c hc
    rw [List.getLast?_append] at hc
    cases hg : (l ++ ls.flatMap fun m => ',' :: (List.replicate j ' ' ++ m)).getLast? with
    | none =>
      rw [List.getLast?_eq_none_iff] at hg
      exact absurd (List.append_eq_nil_iff.1 hg).1 (plain l (by simp)).1
    | some d =>
      rw [hg] at hc
      simp only [Option.some_or, Option.mem_def, Option.some.injEq] at hc
      subst hc
      exact ends d hg

/-- Spaces at the end of a line are nothing. -/
theorem asmTrim_append_spaces (l : List Char) (k : Nat) : asmTrim (l ++ List.replicate k ' ') = asmTrim l := by
  have drop : ∀ m : List Char, (List.replicate k ' ' ++ m).dropWhile asmBlank = m.dropWhile asmBlank := by
    intro m
    rw [List.dropWhile_append_of_pos]
    intro c hc
    rw [(List.mem_replicate.1 hc).2]
    decide
  unfold asmTrim
  rw [List.dropWhile_append]
  split
  · rename_i h
    have h' : l.dropWhile asmBlank = [] := by simpa using h
    have := drop []
    simp only [List.append_nil, List.dropWhile_nil] at this
    rw [this, h']
  · rw [List.reverse_append, List.reverse_replicate, drop]

/-- A comment, and the spaces before it, are nothing. -/
theorem assembleLine_comment (line comment : List Char) (k : Nat) :
    assembleLine (line ++ (List.replicate k ' ' ++ ';' :: comment)) = assembleLine line := by
  have h : asmTrim (asmStripComment (line ++ (List.replicate k ' ' ++ ';' :: comment))) = asmTrim (asmStripComment line) := by
    rw [← List.append_assoc, asmStripComment_comment, asmStripComment, List.takeWhile_append]
    split
    · rename_i h
      have hl : line.takeWhile (fun c => c != ';') = line := (List.takeWhile_prefix _).eq_of_length h
      have hs : (List.replicate k ' ').takeWhile (fun c => c != ';') = List.replicate k ' ' := by
        rw [List.takeWhile_eq_self_iff]
        intro c hc
        rw [(List.mem_replicate.1 hc).2]
        decide
      rw [hs, asmTrim_append_spaces, asmStripComment, hl]
    · rfl
  unfold assembleLine
  rw [h]

/-! ### What each mnemonic names -/

/-- A command with operands that fit is taken, one with an operand that does not is refused. -/
theorem asmFinish_of_command {mn : List Char} {ops : List Nat} {i : Instr} (h : asmCommand mn ops = .ok i) :
    asmFinish mn (some ops) = if i.wellFormed = true then .ok (some i) else .error .operandOutOfRange := by
  simp only [asmFinish, h]

theorem wellFormed_setpx (x y : Nat) (st : Bool) : (Instr.setpx x y st).wellFormed = true ↔ x ≤ 4095 ∧ y ≤ 255 := by
  rw [Instr.wellFormed, Bool.and_eq_true, decide_eq_true_eq, decide_eq_true_eq]

theorem wellFormed_rdbit (idx : Nat) : (Instr.rdbit idx).wellFormed = true ↔ idx ≤ 131071 := by
  rw [Instr.wellFormed, decide_eq_true_eq]

theorem asmFinish_setpx (x y n : Nat) :
    asmFinish "SETPX".toList (some [x, y, n]) =
      if n ≤ 1 ∧ x ≤ 4095 ∧ y ≤ 255 then .ok (some (.setpx x y (n == 1))) else .error .operandOutOfRange := by
  have hc : asmCommand "SETPX".toList [x, y, n] =
      if n ≤ 1 then .ok (.setpx x y (n == 1)) else .error .operandOutOfRange := rfl
  by_cases hn : n ≤ 1
  · rw [if_pos hn] at hc
    simp only [asmFinish_of_command hc, wellFormed_setpx, hn, true_and]
  · rw [if_neg hn] at hc
    simp only [asmFinish, hc, hn, false_and, if_false]

theorem asmFinish_pixel (x y : Nat) (st : Bool) :
    asmFinish (if st then "PXON" else "PXOFF").toList (some [x, y]) =
      if x ≤ 4095 ∧ y ≤ 255 then .ok (some (.setpx x y st)) else .error .operandOutOfRange := by
  have hc : asmCommand (if st then "PXON" else "PXOFF").toList [x, y] = .ok (.setpx x y st) := by cases st <;> rfl
  simp only [asmFinish_of_command hc, wellFormed_setpx]

theorem asmFinish_rdbit (idx : Nat) :
    asmFinish "RDBIT".toList (some [idx]) =
      if idx ≤ 131071 then .ok (some (.rdbit idx)) else .error .operandOutOfRange := by
  have hc : asmCommand "RDBIT".toList [idx] = .ok (.rdbit idx) := rfl
  simp only [asmFinish_of_command hc, wellFormed_rdbit]

/-- A mnemonic that is none of the six is refused, whatever its operands. -/
theorem asmFinish_unknown {mn : List Char}
    (h : ∀ name ∈ ["SETPX", "CLEAR", "SEND", "RDBIT", "PXON", "PXOFF"], mn ≠ name.toList) (ops : Option (List Nat)) :
    ∃ e, asmFinish mn ops = .error e := by
  cases ops with
  | none => exact ⟨_, rfl⟩
  | some ns =>
    have hc : asmCommand mn ns = .error .unknownMnemonic := by
      unfold asmCommand
      have h1 : mn ≠ ['S', 'E', 'T', 'P', 'X'] := h "SETPX" (by simp)
      have h2 : mn ≠ ['P', 'X', 'O', 'N'] := h "PXON" (by simp)
      have h3 : mn ≠ ['P', 'X', 'O', 'F', 'F'] := h "PXOFF" (by simp)
      have h4 : mn ≠ ['C', 'L', 'E', 'A', 'R'] := h "CLEAR" (by simp)
      have h5 : mn ≠ ['S', 'E', 'N', 'D'] := h "SEND" (by simp)
      have h6 : mn ≠ ['R', 'D', 'B', 'I', 'T'] := h "RDBIT" (by simp)
      rw [if_neg h1, if_neg h2, if_neg h3, if_neg h4, if_neg h5, if_neg h6]
    exact ⟨.unknownMnemonic, by simp only [asmFinish, hc]⟩

/-- What `asmFinish` accepts fits its fields. -/
theorem asmFinish_wellFormed {mn : List Char} {ops : Option (List Nat)} {i : Instr}
    (h : asmFinish mn ops = .ok (some i)) : i.wellFormed = true := by
  cases ops with
  | none => simp [asmFinish] at h
  | some ns =>
    simp only [asmFinish] at h
    cases hc : asmCommand mn ns with
    | error e => simp [hc] at h
    | ok j =>
      simp only [hc] at h
      split at h
      · cases h
        assumption
      · cases h

end Sys2Proof.Machine
end

