-- ==== Sys2Proof/Laws/Codec.lean ====
section
/-! SUPPORT. The codec's functions: lengths, the accumulator as a sum modulo 256, what SEND's check says. -/

namespace Sys2Proof.Machine

@[simp] theorem hexEncode_length (v : Byte) : (hexEncode v).length = 2 := rfl

@[simp] theorem pack_length (o : PackOrder) (n : Nat) (bits : List Bool) : (pack o n bits).length = n := by
  simp [pack]

theorem flatMap_hexEncode_length (ds : List Byte) : (ds.flatMap hexEncode).length = 2 * ds.length := by
  induction ds with
  | nil => rfl
  | cons d ds ih => simp [ih]; omega

theorem frameBody_length (c : Config) (bits : List Bool) : (frameBody c bits).length = 5 + 2 * c.nbytes := by
  simp [frameBody]
  omega

theorem hexDigit_isHexChar (d : BitVec 4) : isHexChar (hexDigit d) = true := by
  revert d; decide

theorem accumulate_append (as : List Byte) (b : Byte) : accumulate (as ++ [b]) = accumulate as + b := by
  simp [accumulate]

theorem byteSum_append (as bs : List Byte) : byteSum (as ++ bs) = byteSum as + byteSum bs := by
  simp [byteSum]

/-- R105: the accumulator holds the integer sum modulo 256, wherever the reductions happen. -/
theorem accumulate_toNat (bs : List Byte) : (accumulate bs).toNat = byteSum bs % 256 := by
  induction bs using List.reverseRecOn with
  | nil => rfl
  | append_singleton bs b ih =>
    rw [accumulate_append, BitVec.toNat_add, ih, byteSum_append]
    simp [byteSum]

theorem sendCheck_none_iff (c : Config) :
    sendCheck c = none ↔ c.address + 17 < 256 ∧ c.nbits % 8 = 0 ∧ c.nbytes < 256 := by
  unfold sendCheck addrOffset byteLimit bitsPerByte
  split_ifs <;> simp_all

end Sys2Proof.Machine
end

