-- ==== Sys2Proof/Laws/State.lean ====
section
/-! SUPPORT. One lemma per field per update of State, each true by rfl, so that no proof unfolds a record update. -/

namespace Sys2Proof.Machine

variable (s : State)

@[simp] theorem State.withBits_cfg (b : List Bool) : (s.withBits b).cfg = s.cfg := rfl
@[simp] theorem State.withBits_bits (b : List Bool) : (s.withBits b).bits = b := rfl
@[simp] theorem State.withBits_status (b : List Bool) : (s.withBits b).status = s.status := rfl
@[simp] theorem State.withBits_rdata (b : List Bool) : (s.withBits b).rdata = s.rdata := rfl
@[simp] theorem State.withBits_fcmd (b : List Bool) : (s.withBits b).fcmd = s.fcmd := rfl
@[simp] theorem State.withBits_acc (b : List Bool) : (s.withBits b).acc = s.acc := rfl
@[simp] theorem State.withBits_frames (b : List Bool) : (s.withBits b).frames = s.frames := rfl
@[simp] theorem State.withBits_inputs (b : List Bool) : (s.withBits b).inputs = s.inputs := rfl
@[simp] theorem State.withBits_replies (b : List Bool) : (s.withBits b).replies = s.replies := rfl
@[simp] theorem State.withBits_draws (b : List Bool) : (s.withBits b).draws = s.draws := rfl

@[simp] theorem State.withRdata_cfg (v : Bool) : (s.withRdata v).cfg = s.cfg := rfl
@[simp] theorem State.withRdata_bits (v : Bool) : (s.withRdata v).bits = s.bits := rfl
@[simp] theorem State.withRdata_status (v : Bool) : (s.withRdata v).status = s.status := rfl
@[simp] theorem State.withRdata_rdata (v : Bool) : (s.withRdata v).rdata = rdataWord v := rfl
@[simp] theorem State.withRdata_fcmd (v : Bool) : (s.withRdata v).fcmd = s.fcmd := rfl
@[simp] theorem State.withRdata_acc (v : Bool) : (s.withRdata v).acc = s.acc := rfl
@[simp] theorem State.withRdata_frames (v : Bool) : (s.withRdata v).frames = s.frames := rfl
@[simp] theorem State.withRdata_inputs (v : Bool) : (s.withRdata v).inputs = s.inputs := rfl
@[simp] theorem State.withRdata_replies (v : Bool) : (s.withRdata v).replies = s.replies := rfl
@[simp] theorem State.withRdata_draws (v : Bool) : (s.withRdata v).draws = s.draws := rfl

@[simp] theorem State.withFault_cfg (c : FaultCause) (w : Word) : (s.withFault c w).cfg = s.cfg := rfl
@[simp] theorem State.withFault_bits (c : FaultCause) (w : Word) : (s.withFault c w).bits = s.bits := rfl
@[simp] theorem State.withFault_status (c : FaultCause) (w : Word) : (s.withFault c w).status = statusWord true c.code := rfl
@[simp] theorem State.withFault_rdata (c : FaultCause) (w : Word) : (s.withFault c w).rdata = s.rdata := rfl
@[simp] theorem State.withFault_fcmd (c : FaultCause) (w : Word) : (s.withFault c w).fcmd = w := rfl
@[simp] theorem State.withFault_acc (c : FaultCause) (w : Word) : (s.withFault c w).acc = s.acc := rfl
@[simp] theorem State.withFault_frames (c : FaultCause) (w : Word) : (s.withFault c w).frames = s.frames := rfl
@[simp] theorem State.withFault_inputs (c : FaultCause) (w : Word) : (s.withFault c w).inputs = s.inputs := rfl
@[simp] theorem State.withFault_replies (c : FaultCause) (w : Word) : (s.withFault c w).replies = s.replies := rfl
@[simp] theorem State.withFault_draws (c : FaultCause) (w : Word) : (s.withFault c w).draws = s.draws := rfl

@[simp] theorem State.withFrame_cfg (a : Byte) (f : List Byte) : (s.withFrame a f).cfg = s.cfg := rfl
@[simp] theorem State.withFrame_bits (a : Byte) (f : List Byte) : (s.withFrame a f).bits = s.bits := rfl
@[simp] theorem State.withFrame_status (a : Byte) (f : List Byte) : (s.withFrame a f).status = s.status := rfl
@[simp] theorem State.withFrame_rdata (a : Byte) (f : List Byte) : (s.withFrame a f).rdata = s.rdata := rfl
@[simp] theorem State.withFrame_fcmd (a : Byte) (f : List Byte) : (s.withFrame a f).fcmd = s.fcmd := rfl
@[simp] theorem State.withFrame_acc (a : Byte) (f : List Byte) : (s.withFrame a f).acc = a := rfl
@[simp] theorem State.withFrame_frames (a : Byte) (f : List Byte) : (s.withFrame a f).frames = s.frames ++ [f] := rfl
@[simp] theorem State.withFrame_inputs (a : Byte) (f : List Byte) : (s.withFrame a f).inputs = s.inputs := rfl
@[simp] theorem State.withFrame_replies (a : Byte) (f : List Byte) : (s.withFrame a f).replies = s.replies := rfl
@[simp] theorem State.withFrame_draws (a : Byte) (f : List Byte) : (s.withFrame a f).draws = s.draws := rfl

@[simp] theorem State.withInputs_cfg (es : List HostEvent) : (s.withInputs es).cfg = s.cfg := rfl
@[simp] theorem State.withInputs_bits (es : List HostEvent) : (s.withInputs es).bits = s.bits := rfl
@[simp] theorem State.withInputs_status (es : List HostEvent) : (s.withInputs es).status = s.status := rfl
@[simp] theorem State.withInputs_rdata (es : List HostEvent) : (s.withInputs es).rdata = s.rdata := rfl
@[simp] theorem State.withInputs_fcmd (es : List HostEvent) : (s.withInputs es).fcmd = s.fcmd := rfl
@[simp] theorem State.withInputs_acc (es : List HostEvent) : (s.withInputs es).acc = s.acc := rfl
@[simp] theorem State.withInputs_frames (es : List HostEvent) : (s.withInputs es).frames = s.frames := rfl
@[simp] theorem State.withInputs_inputs (es : List HostEvent) : (s.withInputs es).inputs = es := rfl
@[simp] theorem State.withInputs_replies (es : List HostEvent) : (s.withInputs es).replies = s.replies := rfl
@[simp] theorem State.withInputs_draws (es : List HostEvent) : (s.withInputs es).draws = s.draws := rfl

@[simp] theorem State.withReply_cfg (w : Word) : (s.withReply w).cfg = s.cfg := rfl
@[simp] theorem State.withReply_bits (w : Word) : (s.withReply w).bits = s.bits := rfl
@[simp] theorem State.withReply_status (w : Word) : (s.withReply w).status = s.status := rfl
@[simp] theorem State.withReply_rdata (w : Word) : (s.withReply w).rdata = s.rdata := rfl
@[simp] theorem State.withReply_fcmd (w : Word) : (s.withReply w).fcmd = s.fcmd := rfl
@[simp] theorem State.withReply_acc (w : Word) : (s.withReply w).acc = s.acc := rfl
@[simp] theorem State.withReply_frames (w : Word) : (s.withReply w).frames = s.frames := rfl
@[simp] theorem State.withReply_inputs (w : Word) : (s.withReply w).inputs = s.inputs := rfl
@[simp] theorem State.withReply_replies (w : Word) : (s.withReply w).replies = s.replies ++ [w] := rfl
@[simp] theorem State.withReply_draws (w : Word) : (s.withReply w).draws = s.draws := rfl

@[simp] theorem State.resetNow_cfg : (s.resetNow).cfg = s.cfg := rfl
@[simp] theorem State.resetNow_bits : (s.resetNow).bits = freeBuffer s.cfg s.draws := rfl
@[simp] theorem State.resetNow_status : (s.resetNow).status = 0 := rfl
@[simp] theorem State.resetNow_rdata : (s.resetNow).rdata = 0 := rfl
@[simp] theorem State.resetNow_fcmd : (s.resetNow).fcmd = 0 := rfl
@[simp] theorem State.resetNow_acc : (s.resetNow).acc = Config.freeAcc s.draws := rfl
@[simp] theorem State.resetNow_frames : (s.resetNow).frames = [] := rfl
@[simp] theorem State.resetNow_inputs : (s.resetNow).inputs = s.inputs := rfl
@[simp] theorem State.resetNow_replies : (s.resetNow).replies = [] := rfl
@[simp] theorem State.resetNow_draws : (s.resetNow).draws = s.draws + 1 := rfl

@[simp] theorem State.afterReset_cfg (c : Config) (d : Nat) (es : List HostEvent) :
    (State.afterReset c d es).cfg = c := rfl
@[simp] theorem State.afterReset_bits (c : Config) (d : Nat) (es : List HostEvent) :
    (State.afterReset c d es).bits = freeBuffer c d := rfl
@[simp] theorem State.afterReset_status (c : Config) (d : Nat) (es : List HostEvent) :
    (State.afterReset c d es).status = 0 := rfl
@[simp] theorem State.afterReset_rdata (c : Config) (d : Nat) (es : List HostEvent) :
    (State.afterReset c d es).rdata = 0 := rfl
@[simp] theorem State.afterReset_fcmd (c : Config) (d : Nat) (es : List HostEvent) :
    (State.afterReset c d es).fcmd = 0 := rfl
@[simp] theorem State.afterReset_acc (c : Config) (d : Nat) (es : List HostEvent) :
    (State.afterReset c d es).acc = Config.freeAcc d := rfl
@[simp] theorem State.afterReset_frames (c : Config) (d : Nat) (es : List HostEvent) :
    (State.afterReset c d es).frames = [] := rfl
@[simp] theorem State.afterReset_inputs (c : Config) (d : Nat) (es : List HostEvent) :
    (State.afterReset c d es).inputs = es := rfl
@[simp] theorem State.afterReset_replies (c : Config) (d : Nat) (es : List HostEvent) :
    (State.afterReset c d es).replies = [] := rfl
@[simp] theorem State.afterReset_draws (c : Config) (d : Nat) (es : List HostEvent) :
    (State.afterReset c d es).draws = d + 1 := rfl

end Sys2Proof.Machine
end

