-- ==== Sys2Proof/Laws/Memory.lean ====
section
/-! SUPPORT. The buffer primitives: a read after a write, and that every operation on the buffer keeps its canonical form
(10_state.md R22). -/

namespace Sys2Proof.Machine

@[simp] theorem bitWrite_length (bits : List Bool) (i : Nat) (v : Bool) :
    (bitWrite bits i v).length = bits.length := by simp [bitWrite]

@[simp] theorem zeroBits_length (n : Nat) : (zeroBits n).length = n := by simp [zeroBits]

@[simp] theorem freeBuffer_length (c : Config) (draw : Nat) : (freeBuffer c draw).length = c.nbits := by
  simp [freeBuffer]

theorem bitRead_bitWrite_same {bits : List Bool} {i : Nat} (v : Bool) (h : i < bits.length) :
    bitRead (bitWrite bits i v) i = v := by
  simp [bitRead, bitWrite, List.getD_eq_getElem?_getD, h]

theorem bitRead_bitWrite_ne (bits : List Bool) {i j : Nat} (v : Bool) (h : i ≠ j) :
    bitRead (bitWrite bits i v) j = bitRead bits j := by
  simp [bitRead, bitWrite, List.getD_eq_getElem?_getD, h]

@[simp] theorem bitRead_zeroBits (n i : Nat) : bitRead (zeroBits n) i = false := by
  simp only [bitRead, zeroBits, List.getD_eq_getElem?_getD, List.getElem?_replicate]
  split <;> rfl

theorem bitWrite_comm (bits : List Bool) {i j : Nat} (v w : Bool) (h : i ≠ j) :
    bitWrite (bitWrite bits i v) j w = bitWrite (bitWrite bits j w) i v := by
  simpa [bitWrite] using List.set_comm v w h

@[simp] theorem bitWrite_bitWrite (bits : List Bool) (i : Nat) (v w : Bool) :
    bitWrite (bitWrite bits i v) i w = bitWrite bits i w := by
  simp [bitWrite]

theorem Memory.wf_iff (c : Config) (bits : List Bool) :
    Memory.wf c bits = true ↔ bits.length = c.nbits := by simp [Memory.wf]

@[simp] theorem Memory.wf_bitWrite (c : Config) (bits : List Bool) (i : Nat) (v : Bool) :
    Memory.wf c (bitWrite bits i v) = Memory.wf c bits := by simp [Memory.wf]

@[simp] theorem Memory.wf_zeroBits (c : Config) : Memory.wf c (zeroBits c.nbits) = true := by simp [Memory.wf]

@[simp] theorem Memory.wf_freeBuffer (c : Config) (draw : Nat) : Memory.wf c (freeBuffer c draw) = true := by
  simp [Memory.wf]

/-- Two buffers of one length that read alike are one buffer: the canonical form is one list per buffer. -/
theorem bits_ext {a b : List Bool} (hl : a.length = b.length) (h : ∀ i, bitRead a i = bitRead b i) : a = b := by
  apply List.ext_getElem hl
  intro i ha hb
  simpa [bitRead, List.getD_eq_getElem?_getD, ha, hb] using h i

end Sys2Proof.Machine
end

