-- ==== Sys2Proof/Laws/Commands.lean ====
section
/-! SUPPORT. What each command, and each action of the host, can do, said once: the equations of the meanings on their two
sides, and the inversion lemmas the invariants are derived from. -/

namespace Sys2Proof.Machine

@[simp] theorem exec_setpx (x y : Nat) (st : Bool) (s : State) : exec (.setpx x y st) s = execSetpx x y st s := rfl

@[simp] theorem exec_clear (s : State) : exec .clear s = .next (s.withBits (zeroBits s.cfg.nbits)) := rfl

@[simp] theorem exec_send (s : State) : exec .send s = execSend s := rfl

@[simp] theorem exec_rdbit (idx : Nat) (s : State) : exec (.rdbit idx) s = execRdbit idx s := rfl

/-- Fault entry halts the block (10_state.md R31). -/
@[simp] theorem halted_withFault (s : State) (c : FaultCause) (w : Word) : halted (s.withFault c w) = true := by
  have h : ∀ c : FaultCause, statusFault (statusWord true c.code) = true := by intro c; cases c <;> decide
  exact h c

theorem raiseFault_eq (c : FaultCause) (w : Word) (s : State) : raiseFault c w s = .next (s.withFault c w) := rfl

theorem settable_iff (c : Config) (x y : Nat) :
    settable c x y = true ↔ x < c.columns ∧ y + 2 < c.rows := by
  simp only [settable, Bool.and_eq_true, decide_eq_true_eq]
  exact Iff.rfl

theorem indexValid_iff (c : Config) (idx : Nat) : indexValid c idx = true ↔ idx < c.nbits := by
  simp [indexValid]

theorem execSetpx_of_settable {s : State} {x y : Nat} (st : Bool) (h : settable s.cfg x y = true) :
    execSetpx x y st s = .next (s.withBits (bitWrite s.bits (pixelCell s.cfg x y) st)) := by
  simp [execSetpx, h]

theorem execSetpx_of_not_settable {s : State} {x y : Nat} (st : Bool) (h : settable s.cfg x y = false) :
    execSetpx x y st s = .next (s.withFault .coordRange (encode (.setpx x y st))) := by
  simp [execSetpx, h, raiseFault]

theorem execRdbit_of_valid {s : State} {idx : Nat} (h : indexValid s.cfg idx = true) :
    execRdbit idx s = .next (s.withRdata (bitRead s.bits idx)) := by
  simp [execRdbit, h]

theorem execRdbit_of_invalid {s : State} {idx : Nat} (h : indexValid s.cfg idx = false) :
    execRdbit idx s = .next (s.withFault .indexRange (encode (.rdbit idx))) := by
  simp [execRdbit, h, raiseFault]

theorem execSend_of_check {s : State} {cause : FaultCause} (h : sendCheck s.cfg = some cause) :
    execSend s = .next (s.withFault cause (encode .send)) := by
  simp [execSend, h, raiseFault]

theorem execSend_of_ok {s : State} (h : sendCheck s.cfg = none) :
    execSend s = .next (s.withFrame (accumulate (frameBody s.cfg s.bits)) (frameOf s.cfg s.bits)) := by
  simp [execSend, h]

/-- The four shapes of a command's next state: a cell written, the buffer cleared, a bit read, a frame sent; or the entry of
a fault. -/
theorem exec_shapes (i : Instr) (s : State) :
    (∃ c, exec i s = .next (s.withFault c (encode i))) ∨
    (∃ x y st, i = .setpx x y st ∧ settable s.cfg x y = true ∧
      exec i s = .next (s.withBits (bitWrite s.bits (pixelCell s.cfg x y) st))) ∨
    (i = .clear ∧ exec i s = .next (s.withBits (zeroBits s.cfg.nbits))) ∨
    (∃ idx, i = .rdbit idx ∧ indexValid s.cfg idx = true ∧
      exec i s = .next (s.withRdata (bitRead s.bits idx))) ∨
    (i = .send ∧ sendCheck s.cfg = none ∧
      exec i s = .next (s.withFrame (accumulate (frameBody s.cfg s.bits)) (frameOf s.cfg s.bits))) := by
  cases i with
  | setpx x y st =>
    cases h : settable s.cfg x y with
    | true => exact .inr (.inl ⟨x, y, st, rfl, h, execSetpx_of_settable st h⟩)
    | false => exact .inl ⟨_, execSetpx_of_not_settable st h⟩
  | clear => exact .inr (.inr (.inl ⟨rfl, rfl⟩))
  | send =>
    cases h : sendCheck s.cfg with
    | none => exact .inr (.inr (.inr (.inr ⟨rfl, rfl, execSend_of_ok h⟩)))
    | some c => exact .inl ⟨c, execSend_of_check h⟩
  | rdbit idx =>
    cases h : indexValid s.cfg idx with
    | true => exact .inr (.inr (.inr (.inl ⟨idx, rfl, h, execRdbit_of_valid h⟩)))
    | false => exact .inl ⟨_, execRdbit_of_invalid h⟩

/-- The command port, on a running block. -/
theorem acceptCommand_running {s : State} (w : Word) (h : halted s = false) :
    acceptCommand w s =
      match decode w with
      | .ok i => exec i s
      | .error _ => .next (s.withFault .illegalCmd w) := by
  simp only [acceptCommand, h, raiseFault]
  cases decode w <;> simp

/-- What a step does with each action of the host, guards included. -/
theorem step_cases {s t : State} (h : step s = .next t) :
    (s.inputs = [] ∧ t = s) ∨
    (∃ w rest, s.inputs = .command w :: rest ∧ halted s = false ∧
      acceptCommand w (s.withInputs rest) = .next t) ∨
    (∃ n rest w, s.inputs = .read n :: rest ∧ readRegister (s.withInputs rest) n = some w ∧
      t = (s.withInputs rest).withReply w) ∨
    (∃ a rest, s.inputs = .reset a :: rest ∧ t = (s.withInputs rest).resetNow) := by
  unfold step serveNext at h
  split at h
  · cases h
    exact .inl ⟨‹_›, rfl⟩
  · rename_i e rest he
    cases e with
    | command w =>
      refine .inr (.inl ⟨w, rest, he, ?_, h⟩)
      cases hh : halted s with
      | false => rfl
      | true =>
        have : halted (s.withInputs rest) = true := hh
        simp [serve, acceptCommand, this] at h
    | read n =>
      simp only [serve, serveRead] at h
      split at h
      · cases h
        exact .inr (.inr (.inl ⟨n, rest, _, he, ‹_›, rfl⟩))
      · cases h
    | reset a =>
      simp only [serve] at h
      cases h
      exact .inr (.inr (.inr ⟨a, rest, he, rfl⟩))

end Sys2Proof.Machine
end

