-- ==== Sys2Proof/Laws/PerInstr.lean ====
section
/-! SUPPORT. Facts stated of every command, one lemma per constructor. Family MatchesRow: the word of a command matches the
match and mask of its row of spec/opcode_table.json. -/

namespace Sys2Proof.Laws.MatchesRow

/-- The mask of a command's row (30_encoding.md R65). -/
def mask : Instr → Word
  | .setpx _ _ _ => 0xF7F00000#32
  | .clear => 0xFFFFFFFF#32
  | .send => 0xFFFFFFFF#32
  | .rdbit _ => 0xFFFE0000#32

/-- The match of a command's row (30_encoding.md R65). -/
def pattern : Instr → Word
  | .setpx _ _ _ => 0x10000000#32
  | .clear => 0x20000000#32
  | .send => 0x30000000#32
  | .rdbit _ => 0x40000000#32

/-- `(word AND mask) = match` for the word of `i` (30_encoding.md R65). -/
def Statement (i : Instr) : Prop := encode i &&& mask i = pattern i

theorem setpx (x y : Nat) (st : Bool) : Statement (.setpx x y st) := by
  simp only [Statement, encode, mask, pattern]
  generalize BitVec.ofNat 12 x = x'
  generalize BitVec.ofNat 8 y = y'
  apply BitVec.eq_of_getLsbD_eq
  intro k hk
  simp only [BitVec.getLsbD_and, BitVec.getLsbD_append]
  interval_cases k <;> simp

theorem clear : Statement .clear := by simp only [Statement]; decide

theorem send : Statement .send := by simp only [Statement]; decide

theorem rdbit (idx : Nat) : Statement (.rdbit idx) := by
  simp only [Statement, encode, mask, pattern]
  generalize BitVec.ofNat 17 idx = i'
  apply BitVec.eq_of_getLsbD_eq
  intro k hk
  simp only [BitVec.getLsbD_and, BitVec.getLsbD_append]
  interval_cases k <;> simp

end Sys2Proof.Laws.MatchesRow
end

