-- ==== Sys2Proof/Tests/Slice0.lean ====
section
/-! SUPPORT. The model's own tests: each on fixed values taken from spec/95_test_vectors.md or worked out by hand from the
rules, and, for every statement that has hypotheses, a concrete state and operands that meet them together. -/

namespace Sys2Proof.Tests

open Sys2Proof Sys2Proof.Machine

/-- A running block with the given cells, nothing emitted, and `ACC` zero. -/
def block (c : Config) (bits : List Bool) : State := ⟨c, bits, 0, 0, 0, 0, [], [], [], 1⟩

/-- 16 x 20, address 0, after CLEAR. -/
def panel : State := block Config.scenario (List.replicate 320 false)

/-- 16 x 2, address 0, after CLEAR. -/
def strip : State := block ⟨16, 2, 0, .msbFirst, by decide⟩ (List.replicate 32 false)

/-- 8 x 1, address 0: the configuration of program P7. -/
def small (cells : List Bool) : State := block ⟨8, 1, 0, .msbFirst, by decide⟩ cells

/-- 9 x 3, address `a`: 27 cells, which cannot be packed. -/
def odd (a : Nat) : State := block ⟨9, 3, a, .msbFirst, by decide⟩ (List.replicate 27 false)

/-- `panel` after the fault of V-P7. -/
def stopped : State := panel.withFault .coordRange 0x1800000E#32

/-- The outcome is a next state that `p` accepts. -/
def nextIs (o : Host.Outcome State Fault Refusal) (p : State → Bool) : Bool :=
  match o with
  | .next t => p t
  | .fault _ => false
  | .refused _ => false

/-- The outcome is a fault of the machine. -/
def isFault (o : Host.Outcome State Fault Refusal) : Bool :=
  match o with
  | .next _ => false
  | .fault _ => true
  | .refused _ => false

/-- The outcome is a refusal. -/
def isRefused (o : Host.Outcome State Fault Refusal) : Bool :=
  match o with
  | .next _ => false
  | .fault _ => false
  | .refused _ => true

/-! ### Well-formedness: one ill-formed term per check -/

theorem test_wellFormed_refuses_wide_x : (Instr.setpx 4096 0 true).wellFormed = false := by decide
theorem test_wellFormed_refuses_wide_y : (Instr.setpx 0 256 true).wellFormed = false := by decide
theorem test_wellFormed_refuses_wide_idx : (Instr.rdbit 131072).wellFormed = false := by decide
theorem test_wellFormed_takes_the_largest :
    (Instr.setpx 4095 255 true).wellFormed = true ∧ (Instr.rdbit 131071).wellFormed = true := by decide

/-! ### Decoding: words written bit by bit from the formats of 30_encoding.md R61 to R63 -/

/-- OP 0001, S 1, reserved 0000000, X 000000000011, Y 00001010. -/
theorem test_decode_setpx : decode 0b00011000000000000000001100001010#32 = .ok (.setpx 3 10 true) := by decide
/-- OP 0010, reserved 0. -/
theorem test_decode_clear : decode 0b00100000000000000000000000000000#32 = .ok .clear := by decide
/-- OP 0011, reserved 0. -/
theorem test_decode_send : decode 0b00110000000000000000000000000000#32 = .ok .send := by decide
/-- OP 0100, reserved 00000000000, IDX 10000000000111111. -/
theorem test_decode_rdbit : decode 0b01000000000000010000000000111111#32 = .ok (.rdbit 65599) := by decide
/-- V-D4, V-D6, V-D7, V-D9, V-D11, V-D14 to V-D17: ILLEGAL. -/
theorem test_decode_illegal :
    ([0x18FFFFFF, 0x18800000, 0x10100000, 0x20000001, 0x30000001, 0x40020000, 0x00000000, 0x50000000, 0xF0000000].map
      fun w => decodeTableWord 32 w) = List.replicate 9 none := by decide
/-- 30_encoding.md R71's example. -/
theorem test_encode_example : encode (.setpx 3 10 true) = 0x1800030A#32 := by decide

/-! ### The assembler (30_encoding.md R69, R70) -/

theorem test_assemble_program :
    assemble "clear\nSETPX 3, 0xA, 1 ; comment\n\nPxoff 0,1\nRDBIT 63\nsend".toList =
      .ok [0x20000000#32, 0x1800030A#32, 0x10000001#32, 0x4000003F#32, 0x30000000#32] := by rfl
theorem test_assemble_refuses :
    assembleLine "SETPX 4096, 0, 1".toList = .error .operandOutOfRange ∧
    assembleLine "SETPX 0, 0, 2".toList = .error .operandOutOfRange ∧
    assembleLine "NOP".toList = .error .unknownMnemonic := ⟨rfl, rfl, rfl⟩

/-! ### Configuration (00_scope.md R9) -/

theorem test_config_refuses :
    Config.build? 12 20 0 .msbFirst = none ∧ Config.build? 16 0 0 .msbFirst = none ∧
    Config.build? 16 4097 0 .msbFirst = none ∧ (Config.build? 18 4096 500 .lsbFirst).isSome = true := by decide

/-! ### SETPX, CLEAR, RDBIT -/

/-- V-P3: SETPX 3, 7, 1 sets cell 63. -/
theorem test_setpx_second_branch :
    nextIs (exec (.setpx 3 7 true) panel) (fun t => bitRead t.bits 63 && t.status == 0) = true := by decide
/-- V-P7: SETPX 0, 14, 1 faults. -/
theorem test_setpx_excluded_row :
    nextIs (exec (.setpx 0 14 true) panel) (fun t => t.status == 0x21 && t.fcmd == 0x1800000E) = true := by decide
/-- V-C2: CLEAR does not write RDATA. -/
theorem test_clear_keeps_rdata :
    nextIs (exec .clear ((small (List.replicate 8 true)).withRdata true))
      (fun t => t.bits == List.replicate 8 false && t.rdata == 1) = true := by decide
/-- V-R1: RDBIT of a cell that holds 1. -/
theorem test_rdbit_reads_one :
    nextIs (exec (.rdbit 6) (small [false, false, false, false, false, false, true, false])) (fun t => t.rdata == 1) = true := by
  decide
/-- V-R4: RDBIT 320 of a 16 x 20 panel faults, RDATA unchanged. -/
theorem test_rdbit_past_the_end :
    nextIs (exec (.rdbit 320) (panel.withRdata true))
      (fun t => t.status == 0x31 && t.fcmd == 0x40000140 && t.rdata == 1) = true := by decide

/-! ### The codec and SEND -/

/-- The tables HexEncode and Pack of 95_test_vectors.md. -/
theorem test_codec_tables :
    hexEncode 0x9F#8 = [0x39#8, 0x46#8] ∧ hexEncode 0xA0#8 = [0x41#8, 0x30#8] ∧
    packByte .msbFirst [false, false, false, false, false, true, true, false] 0 = 0x06#8 ∧
    packByte .lsbFirst [false, false, false, false, false, true, true, false] 0 = 0x60#8 := by decide
/-- The table of 95_test_vectors.md, Checksum finalisation. -/
theorem test_finalise_table :
    [0x00#8, 0x01#8, 0x7F#8, 0x80#8, 0xD0#8, 0xFE#8, 0xFF#8].map finalise =
      [0xFF#8, 0xFE#8, 0x80#8, 0x7F#8, 0x2F#8, 0x01#8, 0x00#8] := by decide
/-- Program P7 with the draw 0,1,1,1,1,1,1,0. -/
theorem test_send_frame :
    nextIs (exec .send (small [false, true, true, true, true, true, true, false])) (fun t => t.acc == 0x41 &&
      t.frames == [[0x02, 0x31, 0x31, 0x30, 0x31, 0x37, 0x45, 0x03, 0x42, 0x45]]) = true := by decide
/-- V-S8: ADDR_RANGE before LEN_ALIGN. -/
theorem test_send_priority :
    nextIs (exec .send (odd 239)) (fun t => t.status == 0x41 && t.fcmd == 0x30000000 && t.frames == []) = true := by decide

/-! ### The step, the ports and reset -/

/-- The first word a host writes after reset runs. -/
theorem test_step_runs_first_word :
    nextIs (step (State.reset.withFetchWord 32 0x18000000)) (fun t => bitRead t.bits 6 && t.inputs == []) = true := by decide
/-- V-F1: a halted block accepts no CLEAR. -/
theorem test_step_halted : isFault (step (stopped.withFetchWord 32 0x20000000)) = true := by decide
/-- V-F5: register numbers 0 to 2 answer while halted, 3 is refused. -/
theorem test_step_reads :
    nextIs (step (stopped.withInputs [.read 0])) (fun t => t.replies == [0x21]) = true ∧
    isRefused (step (stopped.withInputs [.read 3])) = true := by decide
/-- V-F2: reset of a halted block, abandoning the CLEAR it did not accept. -/
theorem test_step_reset :
    nextIs (step (stopped.withInputs [.reset (some 0x20000000#32)])) (fun t =>
      t.status == 0 && t.fcmd == 0 && t.frames == [] && !halted t) = true := by decide

/-! ### Witnesses: the hypotheses of each statement can be met -/

theorem witness_DecodeInvertsTheSpecsEncoding :
    4095 ≤ 4095 ∧ 255 ≤ 255 ∧ 131071 ≤ 131071 ∧ (Instr.setpx 4095 255 false).wellFormed = true := by decide
theorem witness_EveryLegalWordIsTheEncodingOfItsCommand : decode 0x4001FFFF#32 = .ok (.rdbit 131071) := by decide
theorem witness_DecodeSelectsTheRowByMaskAndMatch :
    0x180FFFFF#32 &&& 0xF7F00000#32 = 0x10000000#32 ∧ 0x20000000#32 &&& 0xFFFFFFFF#32 = 0x20000000#32 ∧
    0x30000000#32 &&& 0xFFFFFFFF#32 = 0x30000000#32 ∧ 0x4001FFFF#32 &&& 0xFFFE0000#32 = 0x40000000#32 ∧
    0x40020000#32 &&& 0xF7F00000#32 ≠ 0x10000000#32 ∧ 0x40020000#32 &&& 0xFFFFFFFF#32 ≠ 0x20000000#32 ∧
    0x40020000#32 &&& 0xFFFFFFFF#32 ≠ 0x30000000#32 ∧ 0x40020000#32 &&& 0xFFFE0000#32 ≠ 0x40000000#32 := by decide
theorem witness_IllegalWordsAreThoseWithReservedBitsAndFault :
    (panel.withInputs [.command 0x20000001#32]).inputs = [.command 0x20000001#32] ∧
    halted (panel.withInputs [.command 0x20000001#32]) = false ∧ decode 0x20000001#32 = .error .reservedBitSet := by decide
theorem witness_PseudoInstructionsAreSetpxWords : 4095 ≤ 4095 ∧ 255 ≤ 255 := by decide
/-- Numbers at and past each bound, decimal and hexadecimal in both letter cases. -/
theorem witness_AssemblerReadsTheSpecsSyntax_numbers :
    NumberText "4095".toList 4095 ∧ NumberText "0x1000".toList 4096 ∧ NumberText "0xfF".toList 255 ∧
    NumberText "256".toList 256 ∧ NumberText "1".toList 1 ∧ NumberText "2".toList 2 ∧
    NumberText "0x1FFFF".toList 131071 ∧ NumberText "131072".toList 131072 :=
  ⟨.inl ⟨[4, 0, 9, 5], by decide, by decide, rfl, rfl⟩,
    .inr ⟨[(1, false), (0, false), (0, false), (0, false)], by decide, by decide, rfl, rfl⟩,
    .inr ⟨[(15, false), (15, true)], by decide, by decide, rfl, rfl⟩,
    .inl ⟨[2, 5, 6], by decide, by decide, rfl, rfl⟩,
    .inl ⟨[1], by decide, by decide, rfl, rfl⟩, .inl ⟨[2], by decide, by decide, rfl, rfl⟩,
    .inr ⟨[(1, false), (15, true), (15, true), (15, true), (15, true)], by decide, by decide, rfl, rfl⟩,
    .inl ⟨[1, 3, 1, 0, 7, 2], by decide, by decide, rfl, rfl⟩⟩
/-- Mnemonics in any case; a word that is none of the six; two lines of a text, one with a comment. -/
theorem witness_AssemblerReadsTheSpecsSyntax_lines :
    MnemonicText "setPx".toList "SETPX" ∧ MnemonicText "PXON".toList (if true then "PXON" else "PXOFF") ∧
    MnemonicText "pxoff".toList (if false then "PXON" else "PXOFF") ∧ MnemonicText "Rdbit".toList "RDBIT" ∧
    MnemonicText "clear".toList "CLEAR" ∧ MnemonicText "Send".toList "SEND" ∧
    ("NOP".toList ≠ [] ∧ (∀ c ∈ "NOP".toList, c ≠ ';' ∧ c ≠ ' ' ∧ c ≠ '\t' ∧ c ≠ '\r') ∧
      ∀ name ∈ ["SETPX", "CLEAR", "SEND", "RDBIT", "PXON", "PXOFF"], "NOP".toList.map Char.toUpper ≠ name.toList) ∧
    '\n' ∉ "RDBIT 63".toList ∧ assembleLine "RDBIT 63".toList = .ok (some (.rdbit 63)) ∧
    assemble "SEND ; last".toList = .ok [0x30000000#32] := by
  refine ⟨rfl, rfl, rfl, rfl, rfl, rfl, ⟨?_, ?_, ?_⟩, ?_, rfl, rfl⟩
  · simp
  · intro c hc
    have : c ∈ ['N', 'O', 'P'] := hc
    revert this
    revert c
    simp
  · intro name hm
    simp only [List.mem_cons, List.not_mem_nil, or_false] at hm
    rcases hm with rfl | rfl | rfl | rfl | rfl | rfl <;> simp
  · simp
theorem witness_StepRunsTheDecodedCommand :
    (panel.withInputs [.command 0x20000000#32]).inputs = [.command 0x20000000#32] ∧
    halted (panel.withInputs [.command 0x20000000#32]) = false ∧ decode 0x20000000#32 = .ok .clear ∧
    panel.inputs = [] ∧ (Instr.rdbit 131071).wellFormed = true ∧ halted panel = false := by decide
theorem witness_ReadPortAnswersThreeRegisters :
    (stopped.withInputs [.read 2]).inputs = [.read 2] ∧ (2#4).toNat < 3 ∧
    (stopped.withInputs [.read 3]).inputs = [.read 3] ∧ 3 ≤ (3#4).toNat := by decide
theorem witness_HaltedBlockAcceptsNoCommand :
    (2#4).toNat < 3 ∧
    ∀ e ∈ [HostEvent.command 0x20000000#32, .read 2, .reset none], (stopped.withInputs [e]).inputs = [e] ∧
      (stopped.withInputs [e]).status.getLsbD 0 = true := by decide
theorem witness_ResetSetsTheRegistersAndAbandonsTheCommand :
    (stopped.withInputs [.reset (some 0x30000000#32)]).inputs = [.reset (some 0x30000000#32)] := by decide
theorem witness_IndexMapIsInRangeAndInjective :
    19 < Config.scenario.columns ∧ 13 + 2 < Config.scenario.rows ∧ 0 < Config.scenario.columns ∧
    6 + 2 < Config.scenario.rows ∧ bitIndex Config.scenario 19 13 = 313 := by decide
theorem witness_UnreachedRowsAreWrittenByClearOnly :
    Memory.wf strip.cfg strip.bits = true ∧ 1 < strip.cfg.columns ∧ rowUnreached strip.cfg.rows 8 = true ∧
    Instr.setpx 1 13 true ≠ .clear ∧ nextIs (exec (.setpx 1 13 true) strip) (fun _ => true) = true ∧
    Instr.send ≠ .clear ∧ nextIs (exec .send strip) (fun _ => true) = true ∧
    Instr.rdbit 24 ≠ .clear ∧ nextIs (exec (.rdbit 24) strip) (fun _ => true) = true := by decide
theorem witness_SetpxWritesTheOneCellOfItsPixel :
    Memory.wf strip.cfg strip.bits = true ∧ 1 < strip.cfg.columns ∧ 13 + 2 < strip.cfg.rows := by decide
theorem witness_SetpxOutsideTheGridFaults :
    ¬ (0 < panel.cfg.columns ∧ 14 + 2 < panel.cfg.rows) ∧ ¬ (20 < panel.cfg.columns ∧ 0 + 2 < panel.cfg.rows) := by decide
theorem witness_RdbitReadsOneCell : Memory.wf strip.cfg strip.bits = true ∧ 31 < strip.cfg.nbits := by decide
theorem witness_RdbitOfAnInvalidIndexFaults : panel.cfg.nbits ≤ 320 := by decide
theorem witness_BufferLaws :
    Memory.wf strip.cfg strip.bits = true ∧ 1 < strip.cfg.columns ∧ 13 + 2 < strip.cfg.rows ∧
    0 < strip.cfg.columns ∧ 7 + 2 < strip.cfg.rows ∧ ((1, 13) : Nat × Nat) ≠ (0, 7) ∧
    (∀ p ∈ [(1, 13, true), (0, 7, false)], p.1 < strip.cfg.columns ∧ p.2.1 + 2 < strip.cfg.rows) ∧
    rowUnreached strip.cfg.rows 7 = true := by decide
theorem witness_CommandsActOnTheLogicalGrid :
    Memory.wf strip.cfg strip.bits = true ∧ 1 < strip.cfg.columns ∧ 13 + 2 < strip.cfg.rows ∧
    0 < strip.cfg.columns ∧ 0 + 2 < strip.cfg.rows := by decide
theorem witness_EveryCommandButSendIsIdempotent :
    Instr.clear ≠ .send ∧ (∃ t, exec .clear panel = .next t ∧ halted t = false) ∧
    ∃ t, exec .send (small (List.replicate 8 true)) = .next t ∧ halted t = false :=
  ⟨by decide, ⟨_, rfl, by decide⟩, ⟨_, rfl, by decide⟩⟩
theorem witness_HexDigitsAreUppercaseAscii : (9#4).toNat ≤ 9 ∧ 10 ≤ (10#4).toNat := by decide
theorem witness_HexEncodeWritesHighNibbleFirst : hexEncode 0xFF#8 = hexEncode (BitVec.ofNat 8 255) := rfl
theorem witness_PackPlacesEachCellByTheOrder : 7 < 8 := by decide
theorem witness_UnpackInvertsPack :
    [0x06#8, 0x80#8][1]? = some 0x80#8 ∧ 7 < 8 ∧ strip.bits.length % 8 = 0 := by decide
theorem witness_SendEmitsOneFrameInItsLayout :
    (block ⟨8, 255, 238, .lsbFirst, by decide⟩ []).cfg.address + 17 < 256 ∧
    (block ⟨8, 255, 238, .lsbFirst, by decide⟩ []).cfg.nbits % 8 = 0 ∧
    (block ⟨8, 255, 238, .lsbFirst, by decide⟩ []).cfg.nbits / 8 < 256 := by decide
/-- One state for each of the three faults: address 239, 27 cells, 256 bytes. -/
theorem witness_SendFaultsInItsOrder :
    256 ≤ (odd 239).cfg.address + 17 ∧
    ((odd 238).cfg.address + 17 < 256 ∧ (odd 238).cfg.nbits % 8 ≠ 0) ∧
    ((block ⟨16, 128, 0, .msbFirst, by decide⟩ []).cfg.nbits % 8 = 0 ∧
      ¬ (block ⟨16, 128, 0, .msbFirst, by decide⟩ []).cfg.nbits / 8 < 256) := by decide
theorem witness_FramesHaveTheirLengthAndCharacters :
    ∃ t, exec .send (small (List.replicate 8 true)) = .next t ∧ halted t = false := ⟨_, rfl, by decide⟩
theorem witness_EveryFrameBalancesItsChecksum :
    ∃ t, exec .send (small (List.replicate 8 false)) = .next t ∧ halted t = false := ⟨_, rfl, by decide⟩
theorem witness_FrameDependsOnConfigurationAndBufferOnly :
    (small [true, true, true, true, true, true, true, true]).cfg = ((small (List.replicate 8 true)).withRdata true).cfg ∧
    (small [true, true, true, true, true, true, true, true]).bits = ((small (List.replicate 8 true)).withRdata true).bits ∧
    halted (small (List.replicate 8 true)) = false ∧ halted ((small (List.replicate 8 true)).withRdata true) = false ∧
    (∃ t, exec .send (small (List.replicate 8 true)) = .next t ∧ halted t = false) ∧
    ∃ t, exec .send ((small (List.replicate 8 true)).withRdata true) = .next t :=
  ⟨rfl, rfl, by decide, by decide, ⟨_, rfl, by decide⟩, ⟨_, rfl⟩⟩
theorem witness_FrameDeterminesTheBuffer :
    ∃ (s s' t t' : State) (f : List Byte), s = small (List.replicate 8 true) ∧ s' = s.withRdata true ∧ s.cfg = s'.cfg ∧
      Memory.wf s.cfg s.bits = true ∧ Memory.wf s'.cfg s'.bits = true ∧ exec .send s = .next t ∧ exec .send s' = .next t' ∧
      t.frames = s.frames ++ [f] ∧ t'.frames = s'.frames ++ [f] :=
  ⟨_, _, _, _, _, rfl, rfl, rfl, by decide, by decide, rfl, rfl, rfl, rfl⟩
/-- One word for each kind of cause: ILLEGAL, SETPX, RDBIT, SEND. -/
theorem witness_FaultEntryRecordsCauseAndWord :
    ∀ w ∈ [0x00000000#32, 0x1800000E#32, 0x4000001B#32, 0x30000000#32],
      ((odd 0).withInputs [.command w]).inputs = [.command w] ∧ halted ((odd 0).withInputs [.command w]) = false ∧
      nextIs (step ((odd 0).withInputs [.command w])) (fun t => halted t) = true := by
  simp only [List.forall_mem_cons]
  exact ⟨⟨rfl, rfl, rfl⟩, ⟨rfl, rfl, rfl⟩, ⟨rfl, rfl, rfl⟩, ⟨rfl, rfl, rfl⟩, by simp⟩
theorem witness_FaultsArePrecise :
    ∃ t, ((odd 0).withInputs [.command 0x30000000#32]).inputs = [.command 0x30000000#32] ∧
      halted ((odd 0).withInputs [.command 0x30000000#32]) = false ∧
      step ((odd 0).withInputs [.command 0x30000000#32]) = .next t ∧ halted t = true := ⟨_, rfl, by decide, rfl, by decide⟩
theorem witness_OnlyResetLeavesAFault :
    (∃ t, halted (stopped.withInputs [.read 0]) = true ∧ step (stopped.withInputs [.read 0]) = .next t) ∧
    ∃ t, halted (stopped.withInputs [.reset none]) = true ∧ step (stopped.withInputs [.reset none]) = .next t :=
  ⟨⟨_, by decide, rfl⟩, ⟨_, by decide, rfl⟩⟩
/-- A step that changes `RDATA`, one that changes `BITS`, one that changes the frames, one that changes `STATUS`. -/
theorem witness_EachRegisterHasItsWritersOnly :
    nextIs (step ((small (List.replicate 8 true)).withFetchWord 32 0x40000000)) (fun t => t.rdata != 0) = true ∧
    nextIs (step ((small (List.replicate 8 true)).withFetchWord 32 0x20000000))
      (fun t => t.bits != List.replicate 8 true) = true ∧
    nextIs (step ((small (List.replicate 8 true)).withFetchWord 32 0x30000000)) (fun t => t.frames != []) = true ∧
    nextIs (step ((small (List.replicate 8 true)).withFetchWord 32 0x00000000)) (fun t => t.status != 0) = true := by decide
theorem strip_inv : (strip.withFetchWord 32 0x30000000).Inv where
  bits_wf := by decide
  status_wf := ⟨by decide, by decide, by decide⟩
  rdata_wf := by decide
  fcmd_wf := by decide
  frames_wf := fun f hf => by cases hf
theorem witness_StepKeepsTheInvariant :
    (strip.withFetchWord 32 0x30000000).Inv ∧ ∃ t, step (strip.withFetchWord 32 0x30000000) = .next t :=
  ⟨strip_inv, ⟨_, rfl⟩⟩
theorem witness_EveryRunMeetsTheInvariant :
    (List.replicate 32 true).length = strip.cfg.nbits ∧
    ∃ t, runCommands [0x20000000#32, 0x30000000#32]
      ((State.afterReset strip.cfg 0 []).withBits (List.replicate 32 true)) = .next t := ⟨by decide, ⟨_, rfl⟩⟩
theorem witness_BufferLengthAndConfigurationNeverChange :
    Memory.wf strip.cfg strip.bits = true ∧ ∃ t, step (strip.withFetchWord 32 0x20000000) = .next t := ⟨by decide, ⟨_, rfl⟩⟩
/-- The second SEND of the run stands after a SEND and a CLEAR. -/
theorem witness_RunEmitsOneFramePerSend :
    [0x30000000#32, 0x20000000#32, 0x30000000#32] = [0x30000000#32, 0x20000000#32] ++ 0x30000000#32 :: [] ∧
    ∃ t, halted (small []) = false ∧ runCommands [0x30000000#32, 0x20000000#32, 0x30000000#32] (small []) = .next t ∧
      halted t = false := ⟨rfl, _, by decide, rfl, by decide⟩
theorem witness_RunIsTheStepsOfItsCommands :
    (∃ t, runCommands [0x20000000#32, 0x40000007#32] ((small []).withInputs []) = .next t) ∧
    ∃ t, runCommands [0x20000000#32, 0x30000000#32] (State.start strip.cfg 0 []) = .next t := ⟨⟨_, rfl⟩, ⟨_, rfl⟩⟩
theorem witness_LegalSizesAreThoseWhereTheFoldWorks : 1 ≤ 18 ∧ 15 + 2 < 18 := by decide

end Sys2Proof.Tests
end

