-- ==== Sys2Proof/Proofs/Scope.lean ====
section
/-! PROOFS. The configuration (00_scope.md R9): when a block can be built, and the row fold on the settable rows of a legal
configuration, its range and its collisions. -/

namespace Sys2Proof.Machine

/-! ## Legal sizes -/

theorem mem_legalRows_iff {rows : Nat} :
    rows ∈ legalRows ↔
      rows = 1 ∨ rows = 2 ∨ rows = 7 ∨ rows = 8 ∨ rows = 9 ∨ rows = 16 ∨ rows = 17 ∨ rows = 18 := by
  simp [legalRows]

theorem build?_isSome_iff {rows columns address : Nat} {o : PackOrder} :
    (Config.build? rows columns address o).isSome = true ↔ LegalSize rows columns := by
  unfold Config.build?
  split
  case isTrue h => exact iff_of_true rfl h
  case isFalse h => exact iff_of_false Bool.false_ne_true h

/-! ## The row fold -/

theorem rowFold_of_lt {y : Nat} (h : y < 7) : rowFold y = 6 - y := if_pos h

theorem rowFold_of_ge {y : Nat} (h : 7 ≤ y) : rowFold y = 22 - y := if_neg (Nat.not_lt.mpr h)

/-- The two descending branches overlap only from row 16 on: rows 0 and 16 are the first to share a physical row. -/
theorem rowFold_inj_of_lt {y y' : Nat} (hy : y < 16) (hy' : y' < 16) (h : rowFold y = rowFold y') : y = y' := by
  rcases Nat.lt_or_ge y 7 with hlo | hhi <;> rcases Nat.lt_or_ge y' 7 with hlo' | hhi'
  · rw [rowFold_of_lt hlo, rowFold_of_lt hlo'] at h; omega
  · rw [rowFold_of_lt hlo, rowFold_of_ge hhi'] at h; omega
  · rw [rowFold_of_ge hhi, rowFold_of_lt hlo'] at h; omega
  · rw [rowFold_of_ge hhi, rowFold_of_ge hhi'] at h; omega

/-- A settable row of a legal configuration lies on the lower branch of the fold, with its 7 physical rows present, or on
the upper branch, with all 16. -/
theorem settableRow_cases {rows y : Nat} (h : rows ∈ legalRows) (hy : y + 2 < rows) :
    (y < 7 ∧ 7 ≤ rows) ∨ (7 ≤ y ∧ y < 16 ∧ 16 ≤ rows) := by
  rw [mem_legalRows_iff] at h
  omega

theorem rowFold_inRange {rows y : Nat} (h : rows ∈ legalRows) (hy : y + 2 < rows) :
    0 ≤ rowFold y ∧ rowFold y < rows := by
  obtain ⟨hlo, hrows⟩ | ⟨hhi, hlt, hrows⟩ := settableRow_cases h hy
  · rw [rowFold_of_lt hlo]; omega
  · rw [rowFold_of_ge hhi]; omega

theorem rowFold_inj {rows y y' : Nat} (h : rows ∈ legalRows) (hy : y + 2 < rows) (hy' : y' + 2 < rows)
    (heq : rowFold y = rowFold y') : y = y' := by
  have hle : rows ≤ 18 := by rw [mem_legalRows_iff] at h; omega
  exact rowFold_inj_of_lt (by omega) (by omega) heq

/-- Three probes rule out every other size: row 0 folds to 6, row 7 to 15, and rows 0 and 16 collide. -/
theorem mem_legalRows_of_rowFold {rows : Nat} (hpos : 1 ≤ rows)
    (hrange : ∀ y, y + 2 < rows → 0 ≤ rowFold y ∧ rowFold y < rows)
    (hinj : ∀ y y', y + 2 < rows → y' + 2 < rows → rowFold y = rowFold y' → y = y') : rows ∈ legalRows := by
  have row0 : 2 < rows → 6 < rows := fun h => Int.ofNat_lt.mp (hrange 0 h).2
  have row7 : 9 < rows → 15 < rows := fun h => Int.ofNat_lt.mp (hrange 7 h).2
  have row16 : ¬ 18 < rows := fun h => absurd (hinj 0 16 (by omega) h (by decide)) (by decide)
  rw [mem_legalRows_iff]
  omega

/-- Settles O1: a legal size passes the check of `Config.build?`, and a size outside the list fails at row 0, at row 7 or
by the collision of rows 0 and 16. -/
theorem legalSizesAreThoseWhereTheFoldWorks : Obligations.LegalSizesAreThoseWhereTheFoldWorks := by
  unfold Obligations.LegalSizesAreThoseWhereTheFoldWorks
  refine ⟨fun rows columns address o => ?_, fun rows hpos => ⟨fun h => ⟨fun y => ?_, fun y y' => ?_⟩, ?_⟩⟩
  · rw [build?_isSome_iff, LegalSize, mem_legalRows_iff, maxColumns]
  · exact rowFold_inRange h
  · exact rowFold_inj h
  · exact fun ⟨hrange, hinj⟩ => mem_legalRows_of_rowFold hpos hrange hinj

end Sys2Proof.Machine
end

section
/-! PROOFS. The state of the block (10_state.md): what a step, a command and a run do to each piece of it, and the
invariant that every reset state meets and every step keeps. -/

namespace Sys2Proof.Machine

/-! ## Words and commands (30_encoding.md R61 to R71) -/

section
variable (x y : Nat) (st : Bool)

theorem wordOp_encode_setpx : wordOp (encode (.setpx x y st)) = 0x1#4 := by
  rw [wordOp, encode, BitVec.extractLsb'_append_eq_of_le (by omega), BitVec.extractLsb'_append_eq_of_le (by omega),
    BitVec.extractLsb'_append_eq_of_le (by omega)]
  exact BitVec.extractLsb'_append_eq_left

theorem wordReservedP_encode_setpx : wordReservedP (encode (.setpx x y st)) = 0 := by
  rw [wordReservedP, encode, BitVec.extractLsb'_append_eq_of_le (by omega), BitVec.extractLsb'_append_eq_of_le (by omega)]
  exact BitVec.extractLsb'_append_eq_right

theorem wordS_encode_setpx : wordS (encode (.setpx x y st)) = st := by
  rw [wordS, encode, BitVec.getLsbD_append, if_neg (by omega), BitVec.getLsbD_append, if_neg (by omega),
    BitVec.getLsbD_append, if_neg (by omega), BitVec.getLsbD_append, if_pos (by omega)]
  simp

theorem wordX_encode_setpx : wordX (encode (.setpx x y st)) = BitVec.ofNat 12 x := by
  rw [wordX, encode, BitVec.extractLsb'_append_eq_of_le (by omega)]
  exact BitVec.extractLsb'_append_eq_right

theorem wordY_encode_setpx : wordY (encode (.setpx x y st)) = BitVec.ofNat 8 y := by
  rw [wordY, encode]
  exact BitVec.extractLsb'_append_eq_right

end

theorem wordOp_encode_rdbit (idx : Nat) : wordOp (encode (.rdbit idx)) = 0x4#4 := by
  rw [wordOp, encode, BitVec.extractLsb'_append_eq_of_le (by omega)]
  exact BitVec.extractLsb'_append_eq_left

theorem wordReservedI_encode_rdbit (idx : Nat) : wordReservedI (encode (.rdbit idx)) = 0 := by
  rw [wordReservedI, encode, BitVec.extractLsb'_append_eq_of_le (by omega)]
  exact BitVec.extractLsb'_append_eq_right

theorem wordIdx_encode_rdbit (idx : Nat) : wordIdx (encode (.rdbit idx)) = BitVec.ofNat 17 idx := by
  rw [wordIdx, encode]
  exact BitVec.extractLsb'_append_eq_right

theorem decode_encode_setpx {x y : Nat} (st : Bool) (hx : x ≤ 4095) (hy : y ≤ 255) :
    decode (encode (.setpx x y st)) = .ok (.setpx x y st) := by
  have hx' : (BitVec.ofNat 12 x).toNat = x := Nat.mod_eq_of_lt (by omega)
  have hy' : (BitVec.ofNat 8 y).toNat = y := Nat.mod_eq_of_lt (by omega)
  rw [decode, if_pos (wordOp_encode_setpx x y st), decodeSetpx, if_pos (wordReservedP_encode_setpx x y st),
    wordX_encode_setpx, wordY_encode_setpx, wordS_encode_setpx, hx', hy']

theorem decode_encode_rdbit {idx : Nat} (h : idx ≤ 131071) : decode (encode (.rdbit idx)) = .ok (.rdbit idx) := by
  have h' : (BitVec.ofNat 17 idx).toNat = idx := Nat.mod_eq_of_lt (by omega)
  rw [decode, wordOp_encode_rdbit, if_neg (by decide), if_neg (by decide), if_neg (by decide), if_pos rfl, decodeRdbit,
    if_pos (wordReservedI_encode_rdbit idx), wordIdx_encode_rdbit, h']

/-- 30_encoding.md R71: decoding inverts encoding on every command whose operands fit their fields. -/
theorem decode_encode {i : Instr} (h : i.wellFormed = true) : decode (encode i) = .ok i := by
  cases i with
  | setpx x y st =>
    obtain ⟨hx, hy⟩ := (wellFormed_setpx x y st).mp h
    exact decode_encode_setpx st hx hy
  | clear => rfl
  | send => rfl
  | rdbit idx => exact decode_encode_rdbit ((wellFormed_rdbit idx).mp h)

theorem eq_sendWord {w : Word} (hop : wordOp w = 0x3#4) (hz : wordReservedZ w = 0) : w = 0x30000000#32 := by
  have joined : wordOp w ++ wordReservedZ w = w := BitVec.extractLsb'_append_extractLsb' (w := 4) (len := 28)
  rw [← joined, hop, hz]
  rfl

theorem decode_eq_send_iff {w : Word} : decode w = .ok .send ↔ w = 0x30000000#32 := by
  refine ⟨fun h => ?_, fun h => h ▸ rfl⟩
  simp only [decode, decodeSetpx, decodeClear, decodeSend, decodeRdbit] at h
  split_ifs at h <;> cases h
  exact eq_sendWord ‹wordOp w = 0x3#4› ‹wordReservedZ w = 0›

/-- A command placed with `withFetchWord` is written whole: 32 bits are the whole word. -/
theorem tableWord_toNat (w : Word) : tableWord 32 w.toNat = w := by
  rw [tableWord, Nat.mod_eq_of_lt w.isLt, BitVec.ofNat_toNat, BitVec.setWidth_eq]

/-! ## The step and the read port -/

theorem step_of_idle {s : State} (h : s.inputs = []) : step s = .next s := by
  simp only [step, serveNext, h]

theorem step_of_event {s : State} {e : HostEvent} {rest : List HostEvent} (h : s.inputs = e :: rest) :
    step s = serve e (s.withInputs rest) := by
  simp only [step, serveNext, h]

theorem acceptCommand_of_decode {s : State} {w : Word} {i : Instr} (hrun : halted s = false) (hd : decode w = .ok i) :
    acceptCommand w s = exec i s := by
  rw [acceptCommand_running w hrun, hd]

theorem step_of_command {s : State} {w : Word} {rest : List HostEvent} {i : Instr} (h : s.inputs = .command w :: rest)
    (hrun : halted s = false) (hd : decode w = .ok i) : step s = exec i (s.withInputs rest) :=
  (step_of_event h).trans (acceptCommand_of_decode (s := s.withInputs rest) hrun hd)

/-- Settles O9, from the equations of the step and of the command port, and the round trip of the encoding. -/
theorem stepRunsTheDecodedCommand : Obligations.StepRunsTheDecodedCommand := by
  unfold Obligations.StepRunsTheDecodedCommand
  refine ⟨fun s w rest i => step_of_command, fun s => step_of_idle, fun s i hwf hrun => ?_⟩
  have placed : (s.withFetchWord 32 (encode i).toNat).inputs = .command (encode i) :: s.inputs := by
    simp only [State.withFetchWord, hostWritesNext, tableWord_toNat, State.withInputs_inputs]
  exact step_of_command placed hrun (decode_encode hwf)

theorem readRegister_of_lt (s : State) {n : BitVec 4} (h : n.toNat < 3) :
    readRegister s n = some (if n = 0#4 then s.status else if n = 1#4 then s.rdata else s.fcmd) := by
  have three : n = 0#4 ∨ n = 1#4 ∨ n = 2#4 := by bv_omega
  obtain rfl | rfl | rfl := three <;> rfl

theorem readRegister_of_ge (s : State) {n : BitVec 4} (h : 3 ≤ n.toNat) : readRegister s n = none := by
  rw [readRegister, if_neg (by bv_omega), if_neg (by bv_omega), if_neg (by bv_omega)]

/-- Settles O11: the answer is the only write of a read below 3. -/
theorem readPortAnswersThreeRegisters : Obligations.ReadPortAnswersThreeRegisters := by
  unfold Obligations.ReadPortAnswersThreeRegisters
  intro s n rest hin
  have served : step s = serveRead n (s.withInputs rest) := step_of_event hin
  constructor
  · intro hn
    rw [served, serveRead, readRegister_of_lt _ hn]
    exact ⟨_, rfl, rfl, rfl, rfl, rfl, rfl, rfl, rfl, rfl, rfl, rfl⟩
  · intro hn
    rw [served, serveRead, readRegister_of_ge _ hn]

/-! ## What an accepted command can do -/

/-- The five next states of a block in state `s` that accepted the word `w`: fault entry, or the completed command that `w`
decodes to. -/
inductive CommandEffect (w : Word) (s : State) : State → Prop where
  | fault (c : FaultCause) (v : Word) : CommandEffect w s (s.withFault c v)
  | setpx {x y : Nat} {st : Bool} (hd : decode w = .ok (.setpx x y st)) :
      CommandEffect w s (s.withBits (bitWrite s.bits (pixelCell s.cfg x y) st))
  | clear (hd : decode w = .ok .clear) : CommandEffect w s (s.withBits (zeroBits s.cfg.nbits))
  | rdbit {idx : Nat} (hd : decode w = .ok (.rdbit idx)) : CommandEffect w s (s.withRdata (bitRead s.bits idx))
  | send (hd : decode w = .ok .send) (hc : sendCheck s.cfg = none) :
      CommandEffect w s (s.withFrame (accumulate (frameBody s.cfg s.bits)) (frameOf s.cfg s.bits))

theorem exec_effect {w : Word} {i : Instr} {s t : State} (hd : decode w = .ok i) (h : exec i s = .next t) :
    CommandEffect w s t := by
  obtain ⟨c, e⟩ | ⟨x, y, st, rfl, -, e⟩ | ⟨rfl, e⟩ | ⟨idx, rfl, -, e⟩ | ⟨rfl, hc, e⟩ := exec_shapes i s <;>
    cases e.symm.trans h
  · exact .fault c _
  · exact .setpx hd
  · exact .clear hd
  · exact .rdbit hd
  · exact .send hd hc

theorem running_of_acceptCommand {w : Word} {s t : State} (h : acceptCommand w s = .next t) : halted s = false := by
  cases hh : halted s with
  | false => rfl
  | true => simp [acceptCommand, hh] at h

theorem acceptCommand_effect {w : Word} {s t : State} (h : acceptCommand w s = .next t) : CommandEffect w s t := by
  have hrun := running_of_acceptCommand h
  cases hd : decode w with
  | ok i => exact exec_effect hd ((acceptCommand_of_decode hrun hd).symm.trans h)
  | error e =>
    rw [acceptCommand_running w hrun, hd] at h
    cases h
    exact .fault _ _

namespace CommandEffect

variable {w : Word} {s t : State}

theorem cfg_eq (h : CommandEffect w s t) : t.cfg = s.cfg := by
  cases h <;> rfl

theorem bits_wf (h : CommandEffect w s t) (hs : Memory.wf s.cfg s.bits = true) : Memory.wf t.cfg t.bits = true := by
  cases h with
  | setpx => simpa using hs
  | clear => simp
  | fault | rdbit | send => exact hs

theorem rdata_writer (h : CommandEffect w s t) (hne : t.rdata ≠ s.rdata) : ∃ idx, decode w = .ok (.rdbit idx) := by
  cases h with
  | rdbit hd => exact ⟨_, hd⟩
  | fault | setpx | clear | send => exact absurd rfl hne

theorem bits_writer (h : CommandEffect w s t) (hne : t.bits ≠ s.bits) :
    decode w = .ok .clear ∨ ∃ x y st, decode w = .ok (.setpx x y st) := by
  cases h with
  | setpx hd => exact .inr ⟨_, _, _, hd⟩
  | clear hd => exact .inl hd
  | fault | rdbit | send => exact absurd rfl hne

theorem frames_acc_writer (h : CommandEffect w s t) (hne : t.frames ≠ s.frames ∨ t.acc ≠ s.acc) :
    decode w = .ok .send := by
  cases h with
  | send hd => exact hd
  | fault | setpx | clear | rdbit => simp at hne

theorem status_fcmd_writer (h : CommandEffect w s t) (hne : t.status ≠ s.status ∨ t.fcmd ≠ s.fcmd) :
    halted t = true := by
  cases h with
  | fault c v => exact halted_withFault s c v
  | setpx | clear | rdbit | send => simp at hne

/-- A command that does not fault adds the frame of the block it ran on if it is the SEND word, and none otherwise. -/
theorem frames_of_running (h : CommandEffect w s t) (ht : halted t = false) :
    (w = 0x30000000#32 ∧ t.frames = s.frames ++ [frameOf s.cfg s.bits]) ∨
      (w ≠ 0x30000000#32 ∧ t.frames = s.frames) := by
  have other {i : Instr} (hd : decode w = .ok i) (hi : i ≠ .send) : w ≠ 0x30000000#32 := by
    rw [← decode_eq_send_iff.ne, hd]
    simpa using hi
  cases h with
  | fault c v => simp at ht
  | setpx hd | clear hd | rdbit hd => exact .inr ⟨other hd (by simp), rfl⟩
  | send hd => exact .inl ⟨decode_eq_send_iff.mp hd, rfl⟩

end CommandEffect

/-- Settles O40: reads and idle steps write none of these pieces, and a command's writes are those of its effect. -/
theorem eachRegisterHasItsWritersOnly : Obligations.EachRegisterHasItsWritersOnly := by
  unfold Obligations.EachRegisterHasItsWritersOnly
  intro s t h
  obtain ⟨-, rfl⟩ | ⟨w, rest, hin, hrun, h⟩ | ⟨n, rest, v, -, -, rfl⟩ | ⟨a, rest, hin, -⟩ := step_cases h
  · simp
  · have e := acceptCommand_effect h
    refine .inr ⟨fun hne => ?_, fun hne => ?_, fun hne => ?_, fun hne => ?_⟩
    · obtain ⟨idx, hd⟩ := e.rdata_writer hne
      exact ⟨w, rest, idx, hin, hd⟩
    · exact ⟨w, rest, hin, e.bits_writer hne⟩
    · exact ⟨w, rest, hin, e.frames_acc_writer hne⟩
    · exact ⟨hrun, e.status_fcmd_writer hne⟩
  · simp
  · exact .inl ⟨a, rest, hin⟩

theorem step_cfg_eq {s t : State} (h : step s = .next t) : t.cfg = s.cfg := by
  obtain ⟨-, rfl⟩ | ⟨w, rest, -, -, h⟩ | ⟨n, rest, v, -, -, rfl⟩ | ⟨a, rest, -, rfl⟩ := step_cases h
  · rfl
  · exact (acceptCommand_effect h).cfg_eq
  · rfl
  · rfl

theorem step_bits_wf {s t : State} (hs : Memory.wf s.cfg s.bits = true) (h : step s = .next t) :
    Memory.wf t.cfg t.bits = true := by
  obtain ⟨-, rfl⟩ | ⟨w, rest, -, -, h⟩ | ⟨n, rest, v, -, -, rfl⟩ | ⟨a, rest, -, rfl⟩ := step_cases h
  · exact hs
  · exact (acceptCommand_effect h).bits_wf hs
  · exact hs
  · simp

/-- Settles O44: the canonical length is that of the configuration, and no step changes the configuration. -/
theorem bufferLengthAndConfigurationNeverChange : Obligations.BufferLengthAndConfigurationNeverChange := by
  unfold Obligations.BufferLengthAndConfigurationNeverChange
  intro s t hs h
  have hcfg := step_cfg_eq h
  have ht := (Memory.wf_iff _ _).mp (step_bits_wf hs h)
  rw [Memory.wf_iff] at hs
  exact ⟨by rw [ht, hcfg, hs], hcfg⟩

/-! ## Frames (41_packet_codec.md R106 to R111) -/

section
variable (c : Config) (bits : List Bool)

theorem frameOf_take : (frameOf c bits).take (5 + 2 * c.nbytes) = frameBody c bits := by
  rw [frameOf, List.append_assoc, List.take_left' (frameBody_length c bits)]

theorem frameOf_drop : (frameOf c bits).drop (6 + 2 * c.nbytes) = hexEncode (finalise (accumulate (frameBody c bits))) := by
  refine List.drop_left' ?_
  simp [frameBody_length]
  omega

theorem frameOf_length : (frameOf c bits).length = 8 + 2 * c.nbytes := by
  simp [frameOf, frameBody_length]
  omega

theorem frameOf_etx : (frameOf c bits)[5 + 2 * c.nbytes]? = some etx := by
  rw [frameOf, List.append_assoc, List.getElem?_append_right (frameBody_length c bits).le, frameBody_length,
    Nat.sub_self]
  rfl

theorem hexEncode_isHexChar {v b : Byte} (h : b ∈ hexEncode v) : isHexChar b = true := by
  simp only [hexEncode, List.mem_cons, List.not_mem_nil, or_false] at h
  obtain rfl | rfl := h <;> exact hexDigit_isHexChar _

theorem frameBody_isHexChar {b : Byte} (h : b ∈ (frameBody c bits).drop 1) : isHexChar b = true := by
  simp only [frameBody, List.cons_append, List.nil_append, List.drop_succ_cons, List.drop_zero, List.mem_append,
    List.mem_flatMap] at h
  obtain (h | h) | ⟨d, -, h⟩ := h <;> exact hexEncode_isHexChar h

end

theorem finalise_eq_neg (acc : Byte) : finalise acc = -csumOf acc := by
  rw [finalise, BitVec.neg_eq_not_add, ← BitVec.xor_allOnes]
  rfl

/-- R110: the sum of the bytes, the bias of 1 and the checksum byte cancel modulo 256. -/
theorem byteSum_add_finalise (bs : List Byte) :
    (byteSum bs + 1 + (finalise (accumulate bs)).toNat) % 256 = 0 := by
  have hacc := accumulate_toNat bs
  rw [finalise_eq_neg, BitVec.toNat_neg, csumOf, BitVec.toNat_add, hacc]
  simp [csumBias]
  omega

theorem frameOf_wf {c : Config} (bits : List Bool) (h : sendCheck c = none) : FrameWf c (frameOf c bits) := by
  obtain ⟨haddr, hbits, hbytes⟩ := (sendCheck_none_iff c).mp h
  have htail : ((frameOf c bits).drop 1).take (4 + 2 * c.nbytes) = (frameBody c bits).drop 1 := by
    rw [← frameOf_take, List.drop_take]
    congr 1
    omega
  exact {
    length_eq := frameOf_length c bits
    starts := rfl
    address := ⟨haddr, rfl⟩
    length_chars := ⟨hbits, hbytes, rfl⟩
    chars := fun b hb => frameBody_isHexChar c bits (htail ▸ hb)
    ends := frameOf_etx c bits
    check := ⟨_, frameOf_drop c bits, by rw [frameOf_take]; exact byteSum_add_finalise _⟩ }

/-! ## The invariant -/

/-- The values fault entry writes to `STATUS` are legal (10_state.md R25, 60_exceptions.md R131). -/
theorem statusWf_fault (c : FaultCause) : StatusWf (statusWord true c.code) := by
  cases c <;> exact ⟨by decide, by decide, by decide⟩

theorem rdataWord_reserved (v : Bool) : rdataWord v &&& 0xFFFFFFFE#32 = 0#32 := by
  cases v <;> rfl

namespace State.Inv

theorem afterReset (c : Config) (draw : Nat) (es : List HostEvent) : (State.afterReset c draw es).Inv where
  bits_wf := Memory.wf_freeBuffer c draw
  status_wf := ⟨by simp, by simp [statusCause], by simp [statusCause, statusFault]⟩
  rdata_wf := by simp
  fcmd_wf := fun _ => rfl
  frames_wf := by simp

variable {s : State}

theorem withInputs (h : s.Inv) (es : List HostEvent) : (s.withInputs es).Inv := { h with }

theorem withReply (h : s.Inv) (w : Word) : (s.withReply w).Inv := { h with }

theorem withBits (h : s.Inv) {b : List Bool} (hb : Memory.wf s.cfg b = true) : (s.withBits b).Inv :=
  { h with bits_wf := hb }

theorem withRdata (h : s.Inv) (v : Bool) : (s.withRdata v).Inv :=
  { h with rdata_wf := rdataWord_reserved v }

theorem withFault (h : s.Inv) (c : FaultCause) (w : Word) : (s.withFault c w).Inv :=
  { h with
    status_wf := statusWf_fault c
    fcmd_wf := by simp }

theorem withFrame (h : s.Inv) (a : Byte) {f : List Byte} (hf : FrameWf s.cfg f) : (s.withFrame a f).Inv :=
  { h with frames_wf := List.forall_mem_append.mpr ⟨h.frames_wf, by simpa using hf⟩ }

theorem acceptCommand {w : Word} {t : State} (hs : s.Inv) (h : acceptCommand w s = .next t) : t.Inv := by
  have e := acceptCommand_effect h
  have hwf : Memory.wf t.cfg t.bits = true := e.bits_wf hs.bits_wf
  cases e with
  | fault c v => exact hs.withFault c v
  | setpx | clear => exact hs.withBits hwf
  | rdbit => exact hs.withRdata _
  | send _ hc => exact hs.withFrame _ (frameOf_wf s.bits hc)

end State.Inv

/-- Settles O41: every reset is `State.afterReset`, at power-on too. -/
theorem resetMeetsTheInvariant : Obligations.ResetMeetsTheInvariant := by
  unfold Obligations.ResetMeetsTheInvariant
  exact ⟨State.Inv.afterReset, State.Inv.afterReset _ _ _⟩

/-- Settles O42: each action of the host keeps the invariant; a command does by the effect it has. -/
theorem stepKeepsTheInvariant : Obligations.StepKeepsTheInvariant := by
  unfold Obligations.StepKeepsTheInvariant
  intro s t hs h
  obtain ⟨-, rfl⟩ | ⟨w, rest, -, -, h⟩ | ⟨n, rest, v, -, -, rfl⟩ | ⟨a, rest, -, rfl⟩ := step_cases h
  · exact hs
  · exact (hs.withInputs rest).acceptCommand h
  · exact (hs.withInputs rest).withReply v
  · exact State.Inv.afterReset _ _ _

/-! ## Runs (70_reset_and_hazards.md R160) -/

theorem runCommands_cons {w : Word} {s u : State} (h : acceptCommand w s = .next u) (ws : List Word) :
    runCommands (w :: ws) s = runCommands ws u := by
  simp only [runCommands, h]

theorem runCommands_cons_next {w : Word} {ws : List Word} {s t : State} (h : runCommands (w :: ws) s = .next t) :
    ∃ u, acceptCommand w s = .next u ∧ runCommands ws u = .next t := by
  cases ha : acceptCommand w s with
  | next u => exact ⟨u, rfl, (runCommands_cons ha ws).symm.trans h⟩
  | fault r => simp [runCommands, ha] at h
  | refused r => simp [runCommands, ha] at h

/-- What every accepted command keeps, every run keeps. -/
theorem runCommands_keeps {P : State → Prop} (hP : ∀ w s t, P s → acceptCommand w s = .next t → P t) :
    ∀ {ws : List Word} {s t : State}, P s → runCommands ws s = .next t → P t
  | [], _, _, hs, h => by cases h; exact hs
  | w :: _, _, _, hs, h => by
    obtain ⟨u, hu, h⟩ := runCommands_cons_next h
    exact runCommands_keeps hP (hP w _ u hs hu) h

/-- Settles O43: the start of the run meets the invariant whatever its cells, and every accepted command keeps it. -/
theorem everyRunMeetsTheInvariant : Obligations.EveryRunMeetsTheInvariant := by
  unfold Obligations.EveryRunMeetsTheInvariant
  intro c draw bits ws t hlen h
  have start : ((State.afterReset c draw []).withBits bits).Inv :=
    (State.Inv.afterReset c draw []).withBits ((Memory.wf_iff c bits).mpr hlen)
  exact runCommands_keeps (fun _ _ _ => State.Inv.acceptCommand) start h

/-- A run that ends running began running: no command leaves a fault. -/
theorem running_of_runCommands {ws : List Word} {s t : State} (h : runCommands ws s = .next t) (ht : halted t = false) :
    halted s = false := by
  cases ws with
  | nil => cases h; exact ht
  | cons w ws =>
    obtain ⟨u, hu, -⟩ := runCommands_cons_next h
    exact running_of_acceptCommand hu

/-- `fs` are the frames of the SENDs in `ws`, in order, when the words of `ws` are run from `s`: one per SEND, each that of
the state its SEND finds. -/
def SendFrames (ws : List Word) (s : State) (fs : List (List Byte)) : Prop :=
  fs.length = ws.count 0x30000000#32 ∧
    ∀ before after : List Word, ws = before ++ 0x30000000#32 :: after →
      ∃ u : State, runCommands before s = .next u ∧ fs[before.count 0x30000000#32]? = some (frameOf u.cfg u.bits)

theorem sendFrames_nil (s : State) : SendFrames [] s [] :=
  ⟨rfl, fun _ _ h => by simp at h⟩

theorem SendFrames.cons_send {ws : List Word} {s u : State} {fs : List (List Byte)} (h : SendFrames ws u fs)
    (hu : acceptCommand 0x30000000#32 s = .next u) :
    SendFrames (0x30000000#32 :: ws) s (frameOf s.cfg s.bits :: fs) := by
  obtain ⟨hlen, hat⟩ := h
  refine ⟨by simp [hlen], fun before after heq => ?_⟩
  cases before with
  | nil => exact ⟨s, rfl, rfl⟩
  | cons b before =>
    obtain ⟨rfl, htail⟩ := List.cons_eq_cons.mp heq
    obtain ⟨v, hv, hf⟩ := hat before after htail
    exact ⟨v, (runCommands_cons hu before).trans hv, by simpa using hf⟩

theorem SendFrames.cons_other {w : Word} {ws : List Word} {s u : State} {fs : List (List Byte)} (h : SendFrames ws u fs)
    (hw : w ≠ 0x30000000#32) (hu : acceptCommand w s = .next u) : SendFrames (w :: ws) s fs := by
  obtain ⟨hlen, hat⟩ := h
  refine ⟨by rw [hlen, List.count_cons_of_ne hw], fun before after heq => ?_⟩
  cases before with
  | nil => exact absurd (List.cons_eq_cons.mp heq).1 hw
  | cons b before =>
    obtain ⟨rfl, htail⟩ := List.cons_eq_cons.mp heq
    obtain ⟨v, hv, hf⟩ := hat before after htail
    exact ⟨v, (runCommands_cons hu before).trans hv, by rwa [List.count_cons_of_ne hw]⟩

theorem runCommands_sendFrames {ws : List Word} {s t : State} (h : runCommands ws s = .next t) (ht : halted t = false) :
    ∃ fs, t.frames = s.frames ++ fs ∧ SendFrames ws s fs := by
  induction ws generalizing s with
  | nil =>
    cases h
    exact ⟨[], by simp, sendFrames_nil t⟩
  | cons w ws ih =>
    obtain ⟨u, hu, h⟩ := runCommands_cons_next h
    obtain ⟨fs, hfs, hsend⟩ := ih h
    obtain ⟨rfl, hf⟩ | ⟨hw, hf⟩ := (acceptCommand_effect hu).frames_of_running (running_of_runCommands h ht)
    · exact ⟨frameOf s.cfg s.bits :: fs, by rw [hfs, hf, List.append_assoc]; rfl, hsend.cons_send hu⟩
    · exact ⟨fs, by rw [hfs, hf], hsend.cons_other hw hu⟩

/-- Settles O45, by induction on the words of the run. -/
theorem runEmitsOneFramePerSend : Obligations.RunEmitsOneFramePerSend := by
  unfold Obligations.RunEmitsOneFramePerSend
  intro ws s t _ h ht
  exact runCommands_sendFrames h ht

/-! ## The accumulator (10_state.md R28) -/

/-- The state with another value in `ACC`. -/
def State.withAcc (s : State) (a : Byte) : State := { s with acc := a }

theorem exec_withAcc (i : Instr) (s : State) (a : Byte) :
    ∃ t a', exec i s = .next t ∧ exec i (s.withAcc a) = .next (t.withAcc a') := by
  cases i with
  | setpx x y st =>
    cases h : settable s.cfg x y with
    | true => exact ⟨_, a, execSetpx_of_settable st h, execSetpx_of_settable (s := s.withAcc a) st h⟩
    | false => exact ⟨_, a, execSetpx_of_not_settable st h, execSetpx_of_not_settable (s := s.withAcc a) st h⟩
  | clear => exact ⟨_, a, rfl, rfl⟩
  | send =>
    cases h : sendCheck s.cfg with
    | none => exact ⟨_, _, execSend_of_ok h, execSend_of_ok (s := s.withAcc a) h⟩
    | some c => exact ⟨_, a, execSend_of_check h, execSend_of_check (s := s.withAcc a) h⟩
  | rdbit idx =>
    cases h : indexValid s.cfg idx with
    | true => exact ⟨_, a, execRdbit_of_valid h, execRdbit_of_valid (s := s.withAcc a) h⟩
    | false => exact ⟨_, a, execRdbit_of_invalid h, execRdbit_of_invalid (s := s.withAcc a) h⟩

/-- Two blocks that differ only in `ACC` accept a word alike: both are halted, or both move on and again differ at most in
`ACC`. -/
theorem acceptCommand_withAcc (w : Word) (s : State) (a : Byte) :
    (acceptCommand w s = .fault .halted ∧ acceptCommand w (s.withAcc a) = .fault .halted) ∨
      ∃ t a', acceptCommand w s = .next t ∧ acceptCommand w (s.withAcc a) = .next (t.withAcc a') := by
  cases hrun : halted s with
  | true =>
    have hrun' : halted (s.withAcc a) = true := hrun
    exact .inl ⟨by simp [acceptCommand, hrun], by simp [acceptCommand, hrun']⟩
  | false =>
    rw [acceptCommand_running w hrun, acceptCommand_running (s := s.withAcc a) w hrun]
    cases decode w with
    | ok i => exact .inr (exec_withAcc i s a)
    | error e => exact .inr ⟨_, a, rfl, rfl⟩

theorem observeOutcome_runCommands_withAcc (ws : List Word) (s : State) (a : Byte) :
    observeOutcome (runCommands ws s) = observeOutcome (runCommands ws (s.withAcc a)) := by
  induction ws generalizing s a with
  | nil => rfl
  | cons w ws ih =>
    obtain ⟨h, h'⟩ | ⟨t, a', h, h'⟩ := acceptCommand_withAcc w s a
    · simp only [runCommands, h, h']
    · rw [runCommands_cons h, runCommands_cons h']
      exact ih t a'

/-- Settles O47: runs from two states that differ only in `ACC` go in step, and what is seen of their ends is the same. -/
theorem accumulatorIsNeverObserved : Obligations.AccumulatorIsNeverObserved := by
  unfold Obligations.AccumulatorIsNeverObserved
  exact fun s acc ws => observeOutcome_runCommands_withAcc ws s acc

end Sys2Proof.Machine
end

section
/-! PROOFS. The buffer (20_memory.md): how its cells are packed into bytes and read back (R43 to R46), which commands write
them (R51, R52), and the order in which a run's commands reach them (R53). -/

namespace Sys2Proof.Machine

/-! ## Runs and steps (R53) -/

theorem State.withFrame_withInputs (s : State) (es : List HostEvent) (a : Byte) (f : List Byte) :
    (s.withInputs es).withFrame a f = (s.withFrame a f).withInputs es := rfl

/-- What the host will do next has no part in the meaning of a command. -/
theorem exec_withInputs (i : Instr) (s : State) :
    ∃ t : State, ∀ es, exec i (s.withInputs es) = .next (t.withInputs es) := by
  cases i with
  | setpx x y st =>
    cases h : settable s.cfg x y with
    | true =>
      exact ⟨s.withBits (bitWrite s.bits (pixelCell s.cfg x y) st),
        fun es => execSetpx_of_settable (s := s.withInputs es) st h⟩
    | false =>
      exact ⟨s.withFault .coordRange (encode (.setpx x y st)),
        fun es => execSetpx_of_not_settable (s := s.withInputs es) st h⟩
  | clear => exact ⟨s.withBits (zeroBits s.cfg.nbits), fun es => exec_clear (s.withInputs es)⟩
  | send =>
    cases h : sendCheck s.cfg with
    | none =>
      refine ⟨s.withFrame (accumulate (frameBody s.cfg s.bits)) (frameOf s.cfg s.bits), fun es => ?_⟩
      rw [exec_send, execSend_of_ok (s := s.withInputs es) h, State.withInputs_cfg, State.withInputs_bits,
        State.withFrame_withInputs]
    | some c => exact ⟨s.withFault c (encode .send), fun es => execSend_of_check (s := s.withInputs es) h⟩
  | rdbit idx =>
    cases h : indexValid s.cfg idx with
    | true => exact ⟨s.withRdata (bitRead s.bits idx), fun es => execRdbit_of_valid (s := s.withInputs es) h⟩
    | false =>
      exact ⟨s.withFault .indexRange (encode (.rdbit idx)), fun es => execRdbit_of_invalid (s := s.withInputs es) h⟩

theorem acceptCommand_withInputs (w : Word) {s : State} (hrun : halted s = false) :
    ∃ t : State, ∀ es, acceptCommand w (s.withInputs es) = .next (t.withInputs es) := by
  cases hd : decode w with
  | ok i =>
    obtain ⟨t, ht⟩ := exec_withInputs i s
    exact ⟨t, fun es => (acceptCommand_of_decode (s := s.withInputs es) hrun hd).trans (ht es)⟩
  | error e =>
    refine ⟨s.withFault .illegalCmd w, fun es => ?_⟩
    rw [acceptCommand_running (s := s.withInputs es) w hrun, hd]
    rfl

theorem coreRun_succ {k : Nat} {s t : State} (h : step s = .next t) : core.run (k + 1) s = core.run k t := by
  have h' : core.step s = .next t := h
  simp only [Host.Core.run, h']

theorem coreRun_of_runCommands {ws : List Word} {s t : State} (h : runCommands ws (s.withInputs []) = .next t) :
    core.run ws.length (s.withInputs (ws.map .command)) = .next t := by
  induction ws generalizing s with
  | nil => exact h
  | cons w ws ih =>
    obtain ⟨u, hu, h⟩ := runCommands_cons_next h
    have hrun : halted (s.withInputs []) = false := running_of_acceptCommand hu
    obtain ⟨v, hv⟩ := acceptCommand_withInputs w (s := s) hrun
    cases (hv []).symm.trans hu
    have first : step (s.withInputs (.command w :: ws.map .command)) = .next (v.withInputs (ws.map .command)) :=
      (step_of_event (e := .command w) (rest := ws.map .command) rfl).trans (hv _)
    exact (coreRun_succ first).trans (ih h)

/-- Settles O48, by induction on the words: each step serves the first of them and leaves the rest for the host to write. -/
theorem runIsTheStepsOfItsCommands : Obligations.RunIsTheStepsOfItsCommands := by
  unfold Obligations.RunIsTheStepsOfItsCommands
  exact ⟨fun ws s t => coreRun_of_runCommands,
    fun c draw ws t => coreRun_of_runCommands (s := State.afterReset c draw [])⟩

/-! ## Repeated commands (R51) -/

theorem execSetpx_withBits {s : State} {x y : Nat} (st : Bool) (b : List Bool) (h : settable s.cfg x y = true) :
    execSetpx x y st (s.withBits b) = .next (s.withBits (bitWrite b (pixelCell s.cfg x y) st)) :=
  execSetpx_of_settable (s := s.withBits b) st h

/-- Settles O25: a completed command leaves what it reads as it was, and writes again what it wrote. -/
theorem everyCommandButSendIsIdempotent : Obligations.EveryCommandButSendIsIdempotent := by
  unfold Obligations.EveryCommandButSendIsIdempotent
  constructor
  · intro i s t hi h ht
    obtain ⟨c, e⟩ | ⟨x, y, st, rfl, hok, e⟩ | ⟨rfl, e⟩ | ⟨idx, rfl, hok, e⟩ | ⟨rfl, -, e⟩ := exec_shapes i s <;>
      cases e.symm.trans h
    · simp at ht
    · rw [exec_setpx, execSetpx_withBits st _ hok, bitWrite_bitWrite]
    · rfl
    · exact execRdbit_of_valid (s := s.withRdata _) hok
    · exact absurd rfl hi
  · intro s t h ht
    cases hc : sendCheck s.cfg with
    | none =>
      cases (execSend_of_ok hc).symm.trans h
      exact ⟨_, _, execSend_of_ok (s := s.withFrame _ _) hc, rfl, rfl, rfl⟩
    | some c =>
      cases (execSend_of_check hc).symm.trans h
      simp at ht

/-! ## The unreached rows (R52; 40_pixel_buffer.md R80 to R83) -/

/-- The cell of a settable pixel is `RowFold(y) + x * ROWS`: the truncation to a natural number cuts nothing. -/
theorem pixelCell_eq {c : Config} {x y : Nat} (h : settable c x y = true) :
    (pixelCell c x y : Int) = rowFold y + x * c.rows := by
  have hrow := rowFold_inRange c.legal.1 ((settable_iff c x y).mp h).2
  exact Int.toNat_of_nonneg (add_nonneg hrow.1 (by positivity))

theorem rowUnreached_iff {rows r : Nat} :
    rowUnreached rows r = true ↔ r < rows ∧ ∀ y, y + 2 < rows → rowFold y ≠ r := by
  simp only [rowUnreached, Bool.and_eq_true, List.all_eq_true, decide_eq_true_eq, List.mem_range]
  exact and_congr_right fun _ => forall_congr' fun y => ⟨fun h hy => h (by omega) hy, fun h _ => h⟩

/-- Modulo `ROWS` the two cells are their physical rows, of which the fold never gives the unreached one. -/
theorem pixelCell_ne_of_fold_ne {c : Config} {x y r : Nat} (col : Nat) (h : settable c x y = true)
    (hr : r < c.rows) (hfold : ∀ y, y + 2 < c.rows → rowFold y ≠ r) : pixelCell c x y ≠ r + col * c.rows := by
  intro heq
  have hy : y + 2 < c.rows := ((settable_iff c x y).mp h).2
  have hrow := rowFold_inRange c.legal.1 hy
  have hcell := pixelCell_eq h
  rw [heq] at hcell
  have hmod := congrArg (· % (c.rows : Int)) hcell
  simp only [Nat.cast_add, Nat.cast_mul, Int.add_mul_emod_self_right, Int.emod_eq_of_lt hrow.1 hrow.2,
    Int.emod_eq_of_lt (Int.natCast_nonneg r) (Int.ofNat_lt.mpr hr)] at hmod
  exact hfold y hy hmod.symm

theorem cell_lt_nbits {c : Config} {col r : Nat} (hcol : col < c.columns) (hr : r < c.rows) :
    r + col * c.rows < c.nbits :=
  calc r + col * c.rows < (col + 1) * c.rows := by rw [Nat.succ_mul]; omega
    _ ≤ c.columns * c.rows := Nat.mul_le_mul_right _ hcol
    _ = c.nbits := Nat.mul_comm _ _

theorem rdataWord_toNat (v : Bool) : (rdataWord v).toNat = v.toNat := by
  cases v <;> rfl

/-- Settles O17: the only command besides CLEAR that writes a cell is SETPX, and its cell is of another row. -/
theorem unreachedRowsAreWrittenByClearOnly : Obligations.UnreachedRowsAreWrittenByClearOnly := by
  unfold Obligations.UnreachedRowsAreWrittenByClearOnly
  intro s col r _ hcol hr
  obtain ⟨hr, hfold⟩ := rowUnreached_iff.mp hr
  refine ⟨fun i t hi h => ?_, ⟨_, rfl, bitRead_zeroBits _ _⟩, ?_⟩
  · obtain ⟨c, e⟩ | ⟨x, y, st, rfl, hok, e⟩ | ⟨rfl, e⟩ | ⟨idx, rfl, -, e⟩ | ⟨rfl, -, e⟩ := exec_shapes i s <;>
      cases e.symm.trans h
    · rfl
    · exact bitRead_bitWrite_ne _ _ (pixelCell_ne_of_fold_ne col hok hr hfold)
    · exact absurd rfl hi
    · rfl
    · rfl
  · have hidx := cell_lt_nbits hcol hr
    exact ⟨_, execRdbit_of_valid ((indexValid_iff _ _).mpr hidx), rfl, rdataWord_toNat _⟩

/-! ## Packing (R43, R44) -/

section
variable (o : PackOrder)

theorem orderPlace_lt {j : Nat} (h : j < 8) : orderPlace o j < 8 := by
  cases o with
  | msbFirst => exact Nat.lt_of_le_of_lt (Nat.sub_le 7 j) (by decide)
  | lsbFirst => exact h

/-- In both orders the place of a cell in its byte and the cell of a place are the same map. -/
theorem orderPlace_orderPlace {j : Nat} (h : j < 8) : orderPlace o (orderPlace o j) = j := by
  cases o with
  | msbFirst => exact Nat.sub_sub_self (Nat.le_of_lt_succ h)
  | lsbFirst => rfl

/-- The part of the sum of 41_packet_codec.md R103 that the first `n` cells of group `k` contribute. -/
def packCells (bits : List Bool) (k n : Nat) : Byte :=
  (List.range n).foldl
    (fun d j => d + ((BitVec.ofBool (bitRead bits (bitsPerByte * k + j))).setWidth 8) <<< (orderPlace o j)) 0

theorem packByte_eq_packCells (bits : List Bool) (k : Nat) : packByte o bits k = packCells o bits k 8 := rfl

theorem packCells_succ (bits : List Bool) (k n : Nat) :
    packCells o bits k (n + 1) =
      packCells o bits k n + ((BitVec.ofBool (bitRead bits (8 * k + n))).setWidth 8) <<< (orderPlace o n) := by
  simp [packCells, List.range_succ, bitsPerByte]

end

theorem getLsbD_shiftedBit (b : Bool) (p : Nat) {q : Nat} (hq : q < 8) :
    (((BitVec.ofBool b).setWidth 8) <<< p).getLsbD q = (decide (q = p) && b) := by
  rw [BitVec.getLsbD_shiftLeft, BitVec.getLsbD_setWidth, BitVec.getLsbD_ofBool]
  rcases lt_trichotomy q p with h | rfl | h
  · simp [h, h.ne]
  · simp [hq]
  · simp [h.ne', Nat.sub_ne_zero_of_lt h]

/-- Adding a bit at a place that holds 0 carries nothing: it sets that place and no other. -/
theorem getLsbD_add_shiftedBit {d : Byte} (b : Bool) {p q : Nat} (hp : d.getLsbD p = false) (hq : q < 8) :
    (d + ((BitVec.ofBool b).setWidth 8) <<< p).getLsbD q = (d.getLsbD q || (decide (q = p) && b)) := by
  have disjoint : d &&& ((BitVec.ofBool b).setWidth 8) <<< p = 0#8 := by
    apply BitVec.eq_of_getLsbD_eq
    intro q hq
    rw [BitVec.getLsbD_and, getLsbD_shiftedBit b p hq]
    by_cases h : q = p
    · simp [h, hp]
    · simp [h]
  rw [BitVec.add_eq_or_of_and_eq_zero _ _ disjoint, BitVec.getLsbD_or, getLsbD_shiftedBit b p hq]

/-- Each place holds its cell once the sum has reached that cell, and 0 before. -/
theorem packCells_getLsbD (o : PackOrder) (bits : List Bool) (k : Nat) {n q : Nat} (hn : n ≤ 8) (hq : q < 8) :
    (packCells o bits k n).getLsbD q = (decide (orderPlace o q < n) && bitRead bits (8 * k + orderPlace o q)) := by
  induction n generalizing q with
  | zero => simp [packCells]
  | succ n ih =>
    have hn : n < 8 := hn
    have free : (packCells o bits k n).getLsbD (orderPlace o n) = false := by
      rw [ih hn.le (orderPlace_lt o hn), orderPlace_orderPlace o hn]
      simp
    rw [packCells_succ, getLsbD_add_shiftedBit _ free hq, ih hn.le hq]
    have same : q = orderPlace o n ↔ orderPlace o q = n :=
      ⟨fun h => h ▸ orderPlace_orderPlace o hn, fun h => h ▸ (orderPlace_orderPlace o hq).symm⟩
    by_cases h : orderPlace o q = n
    · simp [same, h]
    · have : orderPlace o q < n + 1 ↔ orderPlace o q < n := by omega
      simp [same, h, this]

theorem packByte_getLsbD (o : PackOrder) (bits : List Bool) (k : Nat) {q : Nat} (hq : q < 8) :
    (packByte o bits k).getLsbD q = bitRead bits (8 * k + orderPlace o q) := by
  rw [packByte_eq_packCells, packCells_getLsbD o bits k le_rfl hq, decide_eq_true (orderPlace_lt o hq), Bool.true_and]

theorem packByte_getLsbD_orderPlace (o : PackOrder) (bits : List Bool) (k : Nat) {j : Nat} (hj : j < 8) :
    (packByte o bits k).getLsbD (orderPlace o j) = bitRead bits (8 * k + j) := by
  rw [packByte_getLsbD o bits k (orderPlace_lt o hj), orderPlace_orderPlace o hj]

/-- Settles O28: the two orders are the two values of `orderPlace`. -/
theorem packPlacesEachCellByTheOrder : Obligations.PackPlacesEachCellByTheOrder := by
  unfold Obligations.PackPlacesEachCellByTheOrder
  exact fun bits k j hj => ⟨packByte_getLsbD_orderPlace .msbFirst bits k hj, packByte_getLsbD_orderPlace .lsbFirst bits k hj⟩

/-! ## Unpacking (R45) -/

theorem unpack_cons (o : PackOrder) (d : Byte) (ds : List Byte) :
    unpack o (d :: ds) = (List.range 8).map (fun j => d.getLsbD (orderPlace o j)) ++ unpack o ds := rfl

theorem unpack_length (o : PackOrder) (ds : List Byte) : (unpack o ds).length = 8 * ds.length := by
  induction ds with
  | nil => rfl
  | cons d ds ih => simp [unpack_cons, ih]; omega

theorem unpack_getElem? (o : PackOrder) {ds : List Byte} {k j : Nat} {d : Byte} (hk : ds[k]? = some d) (hj : j < 8) :
    (unpack o ds)[8 * k + j]? = some (d.getLsbD (orderPlace o j)) := by
  induction ds generalizing k with
  | nil => simp at hk
  | cons e ds ih =>
    cases k with
    | zero =>
      obtain rfl : e = d := by simpa using hk
      simp [unpack_cons, List.getElem?_append_left, hj]
    | succ k =>
      have hlen : ((List.range 8).map fun j => e.getLsbD (orderPlace o j)).length = 8 := by simp
      rw [unpack_cons, List.getElem?_append_right (by omega), hlen, show 8 * (k + 1) + j - 8 = 8 * k + j by omega]
      exact ih (by simpa using hk)

theorem pack_getElem? (o : PackOrder) {n k : Nat} (bits : List Bool) (h : k < n) :
    (pack o n bits)[k]? = some (packByte o bits k) := by
  simp [pack, h]

theorem unpack_pack (o : PackOrder) {bits : List Bool} (h : bits.length % 8 = 0) :
    unpack o (pack o (bits.length / 8) bits) = bits := by
  have hlen : (unpack o (pack o (bits.length / 8) bits)).length = bits.length := by
    rw [unpack_length, pack_length]; omega
  refine List.ext_getElem? fun i => ?_
  rcases Nat.lt_or_ge i bits.length with hi | hi
  · have group : (pack o (bits.length / 8) bits)[i / 8]? = some (packByte o bits (i / 8)) :=
      pack_getElem? o bits (by omega)
    have cell := unpack_getElem? o group (Nat.mod_lt i (by decide : 8 > 0))
    rw [packByte_getLsbD_orderPlace o bits _ (Nat.mod_lt i (by decide)), Nat.div_add_mod] at cell
    simpa [bitRead, List.getD_eq_getElem?_getD, hi] using cell
  · rw [List.getElem?_eq_none (hlen.trans_le hi), List.getElem?_eq_none hi]

/-- Settles O29, from the cell of each place and the place of each cell. -/
theorem unpackInvertsPack : Obligations.UnpackInvertsPack := by
  unfold Obligations.UnpackInvertsPack
  exact ⟨fun ds k j d hk hj => ⟨unpack_getElem? .msbFirst hk hj, unpack_getElem? .lsbFirst hk hj⟩, fun o bits => unpack_pack o⟩

/-! ## Frames and the buffer (R43; 41_packet_codec.md R101, R108) -/

theorem hexDigit_inj : ∀ {d d' : BitVec 4}, hexDigit d = hexDigit d' → d = d' := by
  decide

theorem hexEncode_inj {v v' : Byte} (h : hexEncode v = hexEncode v') : v = v' := by
  simp only [hexEncode, List.cons.injEq, and_true] at h
  obtain ⟨hhi, hlo⟩ := h
  have nibbles (v : Byte) : v.extractLsb' 4 4 ++ v.extractLsb' 0 4 = v :=
    BitVec.extractLsb'_append_extractLsb' (w := 4) (len := 4)
  rw [← nibbles v, ← nibbles v', hexDigit_inj hhi, hexDigit_inj hlo]

theorem flatMap_hexEncode_inj {ds ds' : List Byte} (h : ds.flatMap hexEncode = ds'.flatMap hexEncode) : ds = ds' := by
  induction ds generalizing ds' with
  | nil =>
    cases ds' with
    | nil => rfl
    | cons d' ds' => simp [hexEncode] at h
  | cons d ds ih =>
    cases ds' with
    | nil => simp [hexEncode] at h
    | cons d' ds' =>
      rw [List.flatMap_cons, List.flatMap_cons] at h
      obtain ⟨hd, hds⟩ := List.append_inj h rfl
      rw [hexEncode_inj hd, ih hds]

theorem pack_eq_of_frameOf_eq {c : Config} {bits bits' : List Bool} (h : frameOf c bits = frameOf c bits') :
    pack c.packOrder c.nbytes bits = pack c.packOrder c.nbytes bits' := by
  have body : frameBody c bits = frameBody c bits' := by rw [← frameOf_take, h, frameOf_take]
  exact flatMap_hexEncode_inj (List.append_cancel_left body)

theorem bits_eq_of_pack_eq {o : PackOrder} {c : Config} {bits bits' : List Bool} (hmul : c.nbits % 8 = 0)
    (hwf : Memory.wf c bits = true) (hwf' : Memory.wf c bits' = true)
    (h : pack o c.nbytes bits = pack o c.nbytes bits') : bits = bits' := by
  rw [Memory.wf_iff] at hwf hwf'
  have back {b : List Bool} (hb : b.length = c.nbits) : unpack o (pack o c.nbytes b) = b := by
    rw [Config.nbytes, ← hb]
    exact unpack_pack o (hb ▸ hmul)
  rw [← back hwf, h, back hwf']

/-- A SEND that emits a frame passed its three checks, and the frame is that of its block. -/
theorem send_emits {s t : State} {f : List Byte} (h : exec .send s = .next t) (hf : t.frames = s.frames ++ [f]) :
    sendCheck s.cfg = none ∧ f = frameOf s.cfg s.bits := by
  cases hc : sendCheck s.cfg with
  | none =>
    cases (execSend_of_ok hc).symm.trans h
    exact ⟨rfl, by simpa using hf.symm⟩
  | some c =>
    cases (execSend_of_check hc).symm.trans h
    simp at hf

/-- Settles O36: the data characters of a frame give its packed bytes, and those the cells. -/
theorem frameDeterminesTheBuffer : Obligations.FrameDeterminesTheBuffer := by
  unfold Obligations.FrameDeterminesTheBuffer
  intro s s' t t' f hcfg hwf hwf' h h' hf hf'
  obtain ⟨hok, rfl⟩ := send_emits h hf
  obtain ⟨-, hframe⟩ := send_emits h' hf'
  rw [← hcfg] at hframe hwf'
  obtain ⟨-, hmul, -⟩ := (sendCheck_none_iff s.cfg).mp hok
  exact bits_eq_of_pack_eq hmul hwf hwf' (pack_eq_of_frameOf_eq hframe)

end Sys2Proof.Machine
end

section
/-! PROOFS. The encoding (30_encoding.md): what a word decodes to by its fields, the OR form of the encoder, the rows of the
opcode map and the ILLEGAL words, and the texts of the assembler. -/

namespace Sys2Proof.Machine

/-! ## The fields of a word (R60 to R64) -/

section
variable (w : Word)

theorem ofBool_wordS : BitVec.ofBool (wordS w) = w.extractLsb' 27 1 := by
  apply BitVec.eq_of_getLsbD_eq
  intro i hi
  obtain rfl : i = 0 := by omega
  simp [wordS]

theorem formatP_join : wordOp w ++ BitVec.ofBool (wordS w) ++ wordReservedP w ++ wordX w ++ wordY w = w := by
  rw [ofBool_wordS, wordOp, wordReservedP, wordX, wordY,
    BitVec.extractLsb'_append_extractLsb'_eq_extractLsb' (start₂ := 28) (start₁ := 27) rfl,
    BitVec.extractLsb'_append_extractLsb'_eq_extractLsb' (start₂ := 27) (start₁ := 20) rfl,
    BitVec.extractLsb'_append_extractLsb'_eq_extractLsb' (start₂ := 20) (start₁ := 8) rfl]
  exact BitVec.extractLsb'_append_extractLsb' (w := 24) (len := 8)

theorem formatZ_join : wordOp w ++ wordReservedZ w = w :=
  BitVec.extractLsb'_append_extractLsb' (w := 4) (len := 28)

theorem formatI_join : wordOp w ++ wordReservedI w ++ wordIdx w = w := by
  rw [wordOp, wordReservedI, wordIdx,
    BitVec.extractLsb'_append_extractLsb'_eq_extractLsb' (start₂ := 28) (start₁ := 17) rfl]
  exact BitVec.extractLsb'_append_extractLsb' (w := 15) (len := 17)

theorem wordX_toNat : (wordX w).toNat = w.toNat / 256 % 4096 := by
  rw [wordX, BitVec.extractLsb'_toNat, Nat.shiftRight_eq_div_pow]

theorem wordY_toNat : (wordY w).toNat = w.toNat % 256 := by
  rw [wordY, BitVec.extractLsb'_toNat, Nat.shiftRight_zero]

theorem wordIdx_toNat : (wordIdx w).toNat = w.toNat % 131072 := by
  rw [wordIdx, BitVec.extractLsb'_toNat, Nat.shiftRight_zero]

end

/-- A word that meets a match under a mask has the match's bits in every field that the mask covers. -/
theorem extractLsb'_of_masked {w mask pattern : Word} {start len : Nat} (h : w &&& mask = pattern)
    (covered : mask.extractLsb' start len = BitVec.allOnes len) :
    w.extractLsb' start len = pattern.extractLsb' start len := by
  rw [← h, BitVec.extractLsb'_and, covered, BitVec.and_allOnes]

/-! ## Decoding by the fields (R66, R67) -/

theorem wordOp_cases (w : Word) :
    wordOp w = 1#4 ∨ wordOp w = 2#4 ∨ wordOp w = 3#4 ∨ wordOp w = 4#4 ∨ wordOp w = 0#4 ∨ 5#4 ≤ wordOp w := by
  bv_omega

section
variable {w : Word}

theorem decode_of_opSetpx (h : wordOp w = 1#4) : decode w = decodeSetpx w := by
  rw [decode, if_pos h]

theorem decode_of_opClear (h : wordOp w = 2#4) : decode w = decodeClear w := by
  rw [decode, h, if_neg (by decide), if_pos rfl]

theorem decode_of_opSend (h : wordOp w = 3#4) : decode w = decodeSend w := by
  rw [decode, h, if_neg (by decide), if_neg (by decide), if_pos rfl]

theorem decode_of_opRdbit (h : wordOp w = 4#4) : decode w = decodeRdbit w := by
  rw [decode, h, if_neg (by decide), if_neg (by decide), if_neg (by decide), if_pos rfl]

theorem decode_of_reservedOp (h : wordOp w = 0#4 ∨ 5#4 ≤ wordOp w) : decode w = .error .undefinedOp := by
  rw [decode, if_neg (by bv_omega), if_neg (by bv_omega), if_neg (by bv_omega), if_neg (by bv_omega)]

end

section
variable {α ε : Type} {p : Prop} [Decidable p] {a b : α} {e : ε}

theorem guarded_eq_ok_iff : (if p then .ok a else .error e : Except ε α) = .ok b ↔ p ∧ a = b := by
  by_cases h : p <;> simp [h]

theorem guarded_isError_iff : (∃ e', (if p then .ok a else .error e : Except ε α) = .error e') ↔ ¬ p := by
  by_cases h : p <;> simp [h]

end

/-- 30_encoding.md R66: the four ways a word can be legal, with the operands of R64. -/
theorem decode_eq_ok_iff {w : Word} {i : Instr} :
    decode w = .ok i ↔
      (wordOp w = 1#4 ∧ wordReservedP w = 0 ∧ .setpx (wordX w).toNat (wordY w).toNat (wordS w) = i) ∨
      (wordOp w = 2#4 ∧ wordReservedZ w = 0 ∧ .clear = i) ∨
      (wordOp w = 3#4 ∧ wordReservedZ w = 0 ∧ .send = i) ∨
      (wordOp w = 4#4 ∧ wordReservedI w = 0 ∧ .rdbit (wordIdx w).toNat = i) := by
  obtain hop | hop | hop | hop | hop := wordOp_cases w
  · rw [decode_of_opSetpx hop, decodeSetpx, guarded_eq_ok_iff]
    simp [hop]
  · rw [decode_of_opClear hop, decodeClear, guarded_eq_ok_iff]
    simp [hop]
  · rw [decode_of_opSend hop, decodeSend, guarded_eq_ok_iff]
    simp [hop]
  · rw [decode_of_opRdbit hop, decodeRdbit, guarded_eq_ok_iff]
    simp [hop]
  · rw [decode_of_reservedOp hop]
    refine iff_of_false (by simp) ?_
    rintro (⟨h, -⟩ | ⟨h, -⟩ | ⟨h, -⟩ | ⟨h, -⟩) <;> rw [h] at hop <;> exact absurd hop (by decide)

/-- 30_encoding.md R67: the words that are ILLEGAL. -/
theorem decode_isError_iff (w : Word) :
    (∃ e, decode w = .error e) ↔
      wordOp w = 0#4 ∨ 5#4 ≤ wordOp w ∨ (wordOp w = 1#4 ∧ wordReservedP w ≠ 0) ∨
      ((wordOp w = 2#4 ∨ wordOp w = 3#4) ∧ wordReservedZ w ≠ 0) ∨ (wordOp w = 4#4 ∧ wordReservedI w ≠ 0) := by
  obtain hop | hop | hop | hop | hop := wordOp_cases w
  · rw [decode_of_opSetpx hop, decodeSetpx, guarded_isError_iff]
    simp [hop]
  · rw [decode_of_opClear hop, decodeClear, guarded_isError_iff]
    simp [hop]
  · rw [decode_of_opSend hop, decodeSend, guarded_isError_iff]
    simp [hop]
  · rw [decode_of_opRdbit hop, decodeRdbit, guarded_isError_iff]
    simp [hop]
  · exact iff_of_true ⟨_, decode_of_reservedOp hop⟩ (hop.imp_right .inl)

/-! ## Encoding (R70, R71) -/

theorem encode_setpx_eq_or {x y : Nat} (st : Bool) (hx : x ≤ 4095) (hy : y ≤ 255) :
    encode (.setpx x y st) =
      (0x1#32 <<< 28) ||| ((BitVec.ofBool st).setWidth 32 <<< 27) ||| (BitVec.ofNat 32 x <<< 8) ||| BitVec.ofNat 32 y := by
  have wideX : (BitVec.ofNat 12 x).setWidth 32 = BitVec.ofNat 32 x :=
    BitVec.setWidth_ofNat_of_le_of_lt (by omega) (by omega)
  have wideY : (BitVec.ofNat 8 y).setWidth 32 = BitVec.ofNat 32 y :=
    BitVec.setWidth_ofNat_of_le_of_lt (by omega) (by omega)
  refine (BitVec.setWidth_eq _).symm.trans ?_
  rw [encode, BitVec.setWidth_append_append_append_eq_shiftLeft_setWidth_or,
    BitVec.setWidth_append_eq_shiftLeft_setWidth_or, BitVec.shiftLeft_or_distrib, ← BitVec.shiftLeft_add, wideX, wideY]
  simp

theorem encode_rdbit_eq_or {idx : Nat} (h : idx ≤ 131071) :
    encode (.rdbit idx) = (0x4#32 <<< 28) ||| BitVec.ofNat 32 idx := by
  have wideIdx : (BitVec.ofNat 17 idx).setWidth 32 = BitVec.ofNat 32 idx :=
    BitVec.setWidth_ofNat_of_le_of_lt (by omega) (by omega)
  refine (BitVec.setWidth_eq _).symm.trans ?_
  rw [encode, BitVec.setWidth_append_append_eq_shiftLeft_setWidth_or, wideIdx]
  simp

/-- Settles O2: the OR forms are the concatenations of `encode` with each field shifted to its place; the round trip is
`decode_encode`. -/
theorem decodeInvertsTheSpecsEncoding : Obligations.DecodeInvertsTheSpecsEncoding := by
  unfold Obligations.DecodeInvertsTheSpecsEncoding
  exact ⟨fun x y => encode_setpx_eq_or, rfl, rfl, fun idx => encode_rdbit_eq_or, fun i => decode_encode, rfl⟩

/-- Settles O3: each legal word is put together again from its fields. -/
theorem everyLegalWordIsTheEncodingOfItsCommand : Obligations.EveryLegalWordIsTheEncodingOfItsCommand := by
  unfold Obligations.EveryLegalWordIsTheEncodingOfItsCommand
  intro w i h
  obtain ⟨hop, hr, rfl⟩ | ⟨hop, hr, rfl⟩ | ⟨hop, hr, rfl⟩ | ⟨hop, hr, rfl⟩ := decode_eq_ok_iff.mp h
  · refine ⟨(wellFormed_setpx _ _ _).mpr ⟨by bv_omega, by bv_omega⟩, ?_⟩
    conv_rhs => rw [← formatP_join w, hop, hr]
    rw [encode, BitVec.ofNat_toNat, BitVec.ofNat_toNat, BitVec.setWidth_eq, BitVec.setWidth_eq]
    rfl
  · exact ⟨rfl, by rw [← formatZ_join w, hop, hr]; rfl⟩
  · exact ⟨rfl, by rw [← formatZ_join w, hop, hr]; rfl⟩
  · refine ⟨(wellFormed_rdbit _).mpr (by bv_omega), ?_⟩
    conv_rhs => rw [← formatI_join w, hop, hr]
    rw [encode, BitVec.ofNat_toNat, BitVec.setWidth_eq]
    rfl

theorem encode_eq_of_decode {w : Word} {i : Instr} (h : decode w = .ok i) : encode i = w :=
  (everyLegalWordIsTheEncodingOfItsCommand w i h).2

/-- 30_encoding.md R65: a legal word meets the mask and the match of its command's row. -/
theorem matchesRow_of_decode {w : Word} {i : Instr} (h : decode w = .ok i) :
    w &&& Laws.MatchesRow.mask i = Laws.MatchesRow.pattern i := by
  have row : Laws.MatchesRow.Statement i := by
    cases i with
    | setpx x y st => exact Laws.MatchesRow.setpx x y st
    | clear => exact Laws.MatchesRow.clear
    | send => exact Laws.MatchesRow.send
    | rdbit idx => exact Laws.MatchesRow.rdbit idx
  rwa [Laws.MatchesRow.Statement, encode_eq_of_decode h] at row

/-- Settles O4: a row's mask covers OP and the reserved bits, so a word that meets its match has the fields that select the
row; a word that decodes to a command meets that command's row. -/
theorem decodeSelectsTheRowByMaskAndMatch : Obligations.DecodeSelectsTheRowByMaskAndMatch := by
  unfold Obligations.DecodeSelectsTheRowByMaskAndMatch
  intro w
  refine ⟨fun h => ?_, fun h => ?_, fun h => ?_, fun h => ?_, fun hP hClear hSend hI => ?_⟩
  · rw [decode_eq_ok_iff, ← wordX_toNat, ← wordY_toNat]
    exact .inl ⟨extractLsb'_of_masked h rfl, extractLsb'_of_masked h rfl, rfl⟩
  · exact decode_eq_ok_iff.mpr (.inr (.inl ⟨extractLsb'_of_masked h rfl, extractLsb'_of_masked h rfl, rfl⟩))
  · exact decode_eq_ok_iff.mpr (.inr (.inr (.inl ⟨extractLsb'_of_masked h rfl, extractLsb'_of_masked h rfl, rfl⟩)))
  · rw [decode_eq_ok_iff, ← wordIdx_toNat]
    exact .inr (.inr (.inr ⟨extractLsb'_of_masked h rfl, extractLsb'_of_masked h rfl, rfl⟩))
  · cases hd : decode w with
    | error e => exact ⟨e, rfl⟩
    | ok i =>
      have row := matchesRow_of_decode hd
      cases i with
      | setpx x y st => exact absurd row hP
      | clear => exact absurd row hClear
      | send => exact absurd row hSend
      | rdbit idx => exact absurd row hI

theorem step_of_illegal {s : State} {w : Word} {rest : List HostEvent} {e : IllegalWord}
    (h : s.inputs = .command w :: rest) (hrun : halted s = false) (hd : decode w = .error e) :
    step s = .next ((s.withInputs rest).withFault .illegalCmd w) := by
  have accepted := acceptCommand_running (s := s.withInputs rest) w hrun
  rw [hd] at accepted
  exact (step_of_event h).trans accepted

/-- Settles O5: the rejected words by their fields, and the fault entry of the step that takes one. -/
theorem illegalWordsAreThoseWithReservedBitsAndFault : Obligations.IllegalWordsAreThoseWithReservedBitsAndFault := by
  unfold Obligations.IllegalWordsAreThoseWithReservedBitsAndFault
  refine ⟨decode_isError_iff, ⟨_, rfl⟩, fun s w rest e hin hrun hd => ?_⟩
  exact ⟨_, step_of_illegal hin hrun hd, rfl, rfl, rfl, rfl, rfl, rfl, rfl, rfl, rfl, rfl⟩

/-- Settles O6: the OR form of SETPX with its constant fields joined. -/
theorem pseudoInstructionsAreSetpxWords : Obligations.PseudoInstructionsAreSetpxWords := by
  unfold Obligations.PseudoInstructionsAreSetpxWords
  intro x y hx hy
  exact ⟨rfl, encode_setpx_eq_or true hx hy, rfl, encode_setpx_eq_or false hx hy⟩

/-- Settles O7, by decoding each of the eleven words. -/
theorem wordsWrittenFromTheFormatsDecode : Obligations.WordsWrittenFromTheFormatsDecode := by
  unfold Obligations.WordsWrittenFromTheFormatsDecode
  decide

/-! ## The assembler (R69, R70) -/

section
variable {mn : List Char} {name : String} (hmn : MnemonicText mn name)
  (hname : name ∈ ["SETPX", "CLEAR", "SEND", "RDBIT", "PXON", "PXOFF"])

include hmn hname

theorem assembleLine_of_mnemonic : assembleLine mn = asmFinish name.toList (some []) := by
  have line := assembleLine_eq (rest := []) (mnemonicText_plain hmn hname) (by simp) (by simp) (by simp)
  rwa [List.append_nil, hmn] at line

theorem assembleLine_of_operands {l : List Char} {ls : List (List Char)} {ns : List Nat}
    (h : List.Forall₂ NumberText (l :: ls) ns) (k j : Nat) :
    assembleLine (lineText mn k j (l :: ls)) = asmFinish name.toList (some ns) := by
  rw [assembleLine_lineText (mnemonicText_plain hmn hname) h, hmn]

end

/-- Dropping characters at the end of a text stops at a part of it that has none of them. -/
theorem rdropWhile_append_of_neg {α : Type} {p : α → Bool} {l : List α} (h : ∀ c ∈ l, p c = false) (rest : List α) :
    ∃ r, (l ++ rest).rdropWhile p = l ++ r ∧ r <+: rest := by
  induction rest using List.reverseRecOn with
  | nil =>
    refine ⟨[], ?_, List.prefix_rfl⟩
    rw [List.append_nil, List.rdropWhile_eq_self_iff]
    exact fun hne => by simp [h _ (List.getLast_mem hne)]
  | append_singleton rest c ih =>
    rw [← List.append_assoc, List.rdropWhile_concat]
    split
    · obtain ⟨r, hr, hpre⟩ := ih
      exact ⟨r, hr, hpre.trans (List.prefix_append _ _)⟩
    · exact ⟨rest ++ [c], List.append_assoc .., List.prefix_rfl⟩

/-- Trimming a text keeps the word it begins with. -/
theorem asmTrim_append_of_word {mn : List Char} (hne : mn ≠ []) (hb : ∀ c ∈ mn, asmBlank c = false) (rest : List Char) :
    ∃ r, asmTrim (mn ++ rest) = mn ++ r ∧ r <+: rest := by
  have front : asmTrim (mn ++ rest) = (mn ++ rest).rdropWhile asmBlank := by
    obtain ⟨c, m, rfl⟩ := List.exists_cons_of_ne_nil hne
    rw [asmTrim, List.cons_append, List.dropWhile_cons_of_neg (by simp [hb c])]
    rfl
  rw [front]
  exact rdropWhile_append_of_neg hb rest

/-- The first word of a line is its mnemonic, whatever follows it after white space. -/
theorem assembleLine_firstWord {mn rest : List Char} (hne : mn ≠ []) (hb : ∀ c ∈ mn, asmBlank c = false)
    (hsemi : ∀ c ∈ mn, c ≠ ';') (hs : ∀ c ∈ rest.head?, asmBlank c = true) :
    ∃ ops, assembleLine (mn ++ rest) = asmFinish (mn.map Char.toUpper) ops := by
  have strip : asmStripComment (mn ++ rest) = mn ++ asmStripComment rest :=
    List.takeWhile_append_of_pos fun c hc => bne_iff_ne.mpr (hsemi c hc)
  obtain ⟨r, htrim, hpre⟩ := asmTrim_append_of_word hne hb (asmStripComment rest)
  have hr : r <+: rest := hpre.trans (List.takeWhile_prefix _)
  have word : (mn ++ r).takeWhile (fun c => !asmBlank c) = mn := by
    rw [List.takeWhile_append_of_pos fun c hc => by simp [hb c hc]]
    cases r with
    | nil => simp
    | cons c r =>
      obtain ⟨t, rfl⟩ := hr
      simp [hs c (by simp)]
  rw [assembleLine, strip, htrim, if_neg (by simp [hne]), word]
  exact ⟨_, rfl⟩

theorem assemble_cons {line text : List Char} {i : Instr} {ws : List Word} (hline : '\n' ∉ line)
    (hi : assembleLine line = .ok (some i)) (hws : assemble text = .ok ws) :
    assemble (line ++ '\n' :: text) = .ok (encode i :: ws) := by
  rw [assemble] at hws
  rw [assemble, asmSplit_append hline, assembleLines, hi, hws]

theorem assembleLine_wellFormed {line : List Char} {i : Instr} (h : assembleLine line = .ok (some i)) :
    i.wellFormed = true := by
  simp only [assembleLine] at h
  split at h
  · cases h
  · exact asmFinish_wellFormed h

/-- A text whose answer is guarded by the bounds of its operands is taken within them and refused outside. -/
theorem taken_and_refused {α ε : Type} {p : Prop} [Decidable p] {r : Except ε α} {a : α} {e : ε}
    (h : r = if p then .ok a else .error e) : (p → r = .ok a) ∧ (¬ p → ∃ e', r = .error e') :=
  ⟨fun hp => h.trans (if_pos hp), fun hp => ⟨e, h.trans (if_neg hp)⟩⟩

/-- Settles O8: a line is its mnemonic and the numbers of its operands, and `asmFinish` says which of them are taken. -/
theorem assemblerReadsTheSpecsSyntax : Obligations.AssemblerReadsTheSpecsSyntax := by
  unfold Obligations.AssemblerReadsTheSpecsSyntax
  refine ⟨fun mn lx ly ls x y n k j hx hy hn hmn => ?setpx, fun mn lx ly x y k j st hx hy hmn => ?pixel,
    fun mn li idx k j hidx hmn => ?rdbit, fun mn hmn => ?clear, fun mn hmn => ?send,
    fun mn rest hne hplain hunknown hrest => ?unknown, assembleLine_comment, fun line text i ws => assemble_cons,
    fun line i => assembleLine_wellFormed⟩
  case setpx =>
    have line := assembleLine_of_operands hmn (by simp) (.cons hx (.cons hy (.cons hn .nil))) k j
    obtain ⟨taken, refused⟩ := taken_and_refused (line.trans (asmFinish_setpx x y n))
    exact ⟨fun hx hy hn => taken ⟨hn, hx, hy⟩, fun h => refused (by omega)⟩
  case pixel =>
    have line := assembleLine_of_operands hmn (by cases st <;> simp) (.cons hx (.cons hy .nil)) k j
    obtain ⟨taken, refused⟩ := taken_and_refused (line.trans (asmFinish_pixel x y st))
    exact ⟨fun hx hy => taken ⟨hx, hy⟩, fun h => refused (by omega)⟩
  case rdbit =>
    have line := assembleLine_of_operands hmn (by simp) (.cons hidx .nil) k j
    obtain ⟨taken, refused⟩ := taken_and_refused (line.trans (asmFinish_rdbit idx))
    exact ⟨taken, fun h => refused (by omega)⟩
  case clear => exact assembleLine_of_mnemonic hmn (by simp)
  case send => exact assembleLine_of_mnemonic hmn (by simp)
  case unknown =>
    have hb : ∀ c ∈ mn, asmBlank c = false := fun c hc => by simp [asmBlank, hplain c hc]
    have hs : ∀ c ∈ rest.head?, asmBlank c = true := by
      obtain rfl | ⟨r, rfl⟩ := hrest <;> simp [asmBlank]
    obtain ⟨ops, line⟩ := assembleLine_firstWord hne hb (fun c hc => (hplain c hc).1) hs
    rw [line]
    exact asmFinish_unknown hunknown ops

end Sys2Proof.Machine
end

section
/-! PROOFS. The pixel buffer (40_pixel_buffer.md): the index map on the settable pixels (R80 to R83), what SETPX, CLEAR and
RDBIT do (R84 to R86), and the block as a grid of independent pixels (R87). -/

namespace Sys2Proof.Machine

/-! ## The index map (R80 to R83) -/

theorem rowFold_eq_ite (y : Nat) : rowFold y = if y < 7 then 6 - (y : Int) else 22 - (y : Int) := rfl

/-- A number below `n` and a multiple of `n` are found again in their sum. -/
theorem eq_and_eq_of_add_mul_eq {n r r' x x' : Nat} (hr : r < n) (hr' : r' < n) (h : r + x * n = r' + x' * n) :
    r = r' ∧ x = x' := by
  have hrow : r = r' := by simpa [Nat.mod_eq_of_lt, hr, hr'] using congrArg (· % n) h
  subst hrow
  exact ⟨rfl, Nat.eq_of_mul_eq_mul_right (Nat.zero_lt_of_lt hr) (Nat.add_left_cancel h)⟩

section
variable {c : Config} {x y x' y' : Nat}

theorem settable_of_lt (hx : x < c.columns) (hy : y + 2 < c.rows) : settable c x y = true :=
  (settable_iff c x y).mpr ⟨hx, hy⟩

/-- The cell of a settable pixel lies in column `x` of the buffer, at the physical row its logical row folds to. -/
theorem exists_physicalRow (h : settable c x y = true) :
    ∃ r : Nat, rowFold y = (r : Int) ∧ r < c.rows ∧ pixelCell c x y = r + x * c.rows := by
  obtain ⟨hnonneg, hlt⟩ := rowFold_inRange c.legal.1 ((settable_iff c x y).mp h).2
  obtain ⟨r, hr⟩ := Int.eq_ofNat_of_zero_le hnonneg
  have hcell := pixelCell_eq h
  rw [hr] at hcell hlt
  exact ⟨r, hr, by exact_mod_cast hlt, by exact_mod_cast hcell⟩

theorem pixelCell_lt_nbits (h : settable c x y = true) : pixelCell c x y < c.nbits := by
  obtain ⟨r, -, hr, hcell⟩ := exists_physicalRow h
  exact hcell ▸ cell_lt_nbits ((settable_iff c x y).mp h).1 hr

theorem pixelCell_inj (h : settable c x y = true) (h' : settable c x' y' = true)
    (heq : pixelCell c x y = pixelCell c x' y') : x = x' ∧ y = y' := by
  obtain ⟨r, hfold, hr, hcell⟩ := exists_physicalRow h
  obtain ⟨r', hfold', hr', hcell'⟩ := exists_physicalRow h'
  obtain ⟨rfl, hx⟩ := eq_and_eq_of_add_mul_eq hr hr' (hcell.symm.trans (heq.trans hcell'))
  have hy := ((settable_iff c x y).mp h).2
  have hy' := ((settable_iff c x' y').mp h').2
  exact ⟨hx, rowFold_inj c.legal.1 hy hy' (hfold.trans hfold'.symm)⟩

theorem pixelCell_ne_of_ne (h : settable c x y = true) (h' : settable c x' y' = true) (hne : ¬ (x = x' ∧ y = y')) :
    pixelCell c x y ≠ pixelCell c x' y' :=
  fun heq => hne (pixelCell_inj h h' heq)

end

/-- Settles O15: on a settable pixel the index is the natural number `pixelCell`, whose column and physical row can be read
off. -/
theorem indexMapIsInRangeAndInjective : Obligations.IndexMapIsInRangeAndInjective := by
  unfold Obligations.IndexMapIsInRangeAndInjective
  intro c x y hx hy
  have h : settable c x y = true := settable_of_lt hx hy
  have hindex : bitIndex c x y = (pixelCell c x y : Int) := (pixelCell_eq h).symm
  obtain ⟨hnonneg, hlt⟩ := rowFold_inRange c.legal.1 hy
  refine ⟨hnonneg, hlt, ?_, ?_, fun x' y' hx' hy' heq => ?_⟩
  · exact hindex ▸ Int.natCast_nonneg _
  · exact hindex ▸ Int.ofNat_lt.mpr (pixelCell_lt_nbits h)
  · exact pixelCell_inj h (settable_of_lt hx' hy') (congrArg Int.toNat heq)

/-- Settles O16, by computing the rows of the table. -/
theorem foldTablePerRowCount : Obligations.FoldTablePerRowCount := by
  unfold Obligations.FoldTablePerRowCount
  decide

/-! ## SETPX, CLEAR, RDBIT (R84 to R86) -/

/-- In a buffer that has its length, the cell a settable SETPX writes holds what it wrote. -/
theorem bitRead_bitWrite_pixelCell {c : Config} {bits : List Bool} {x y : Nat} (st : Bool)
    (hwf : Memory.wf c bits = true) (h : settable c x y = true) :
    bitRead (bitWrite bits (pixelCell c x y) st) (pixelCell c x y) = st :=
  bitRead_bitWrite_same st (((Memory.wf_iff c bits).mp hwf).symm ▸ pixelCell_lt_nbits h)

/-- Settles O18: the buffer is written at one index, which is in range, and nothing else is. -/
theorem setpxWritesTheOneCellOfItsPixel : Obligations.SetpxWritesTheOneCellOfItsPixel := by
  unfold Obligations.SetpxWritesTheOneCellOfItsPixel
  intro s x y st hwf hx hy
  have h : settable s.cfg x y = true := settable_of_lt hx hy
  refine ⟨_, execSetpx_of_settable st h, ?_, pixelCell_lt_nbits h, bitRead_bitWrite_pixelCell st hwf h,
    fun j hj => bitRead_bitWrite_ne _ st hj.symm, bitWrite_length _ _ _, rfl, rfl, rfl, rfl, rfl, rfl, rfl, rfl, rfl⟩
  rw [pixelCell_eq h, rowFold_eq_ite]

/-- Settles O20: the next state differs from `s` in its buffer only, which is `zeroBits`. -/
theorem clearZeroesEveryCell : Obligations.ClearZeroesEveryCell := by
  unfold Obligations.ClearZeroesEveryCell
  intro s
  exact ⟨_, exec_clear s, zeroBits_length _, bitRead_zeroBits _, rfl, rfl, rfl, rfl, rfl, rfl, rfl, rfl, rfl⟩

theorem getElem?_eq_bitRead {bits : List Bool} {i : Nat} (h : i < bits.length) : bits[i]? = some (bitRead bits i) := by
  simp [bitRead, List.getD_eq_getElem?_getD, h]

theorem rdataWord_eq_ite (v : Bool) : rdataWord v = if v then 1#32 else 0#32 := by
  cases v <;> rfl

/-- Settles O21: the index is below the length of the list, so the cell that `bitRead` gives is in it. -/
theorem rdbitReadsOneCell : Obligations.RdbitReadsOneCell := by
  unfold Obligations.RdbitReadsOneCell
  intro s idx hwf hidx
  have hlen : idx < s.bits.length := ((Memory.wf_iff _ _).mp hwf).symm ▸ hidx
  exact ⟨_, _, execRdbit_of_valid ((indexValid_iff _ idx).mpr hidx), getElem?_eq_bitRead hlen, rdataWord_eq_ite _,
    rfl, rfl, rfl, rfl, rfl, rfl, rfl, rfl, rfl⟩

/-! ## Sequences of pixel writes (R87) -/

theorem runInstrs_cons {i : Instr} {s u : State} (h : exec i s = .next u) (is : List Instr) :
    runInstrs (i :: is) s = runInstrs is u := by
  simp only [runInstrs, h]

theorem runInstrs_setpx_cons {s : State} {x y : Nat} (st : Bool) (h : settable s.cfg x y = true) (is : List Instr) :
    runInstrs (.setpx x y st :: is) s = runInstrs is (s.withBits (bitWrite s.bits (pixelCell s.cfg x y) st)) :=
  runInstrs_cons (i := .setpx x y st) (execSetpx_of_settable st h) is

theorem runInstrs_rdbit {s : State} {idx : Nat} (h : indexValid s.cfg idx = true) :
    runInstrs [.rdbit idx] s = .next (s.withRdata (bitRead s.bits idx)) :=
  runInstrs_cons (i := .rdbit idx) (execRdbit_of_valid h) []

/-- The buffer after the settable pixels `ps` have been written in order, each with its state. -/
def writePixels (c : Config) : List (Nat × Nat × Bool) → List Bool → List Bool
  | [], bits => bits
  | p :: ps, bits => writePixels c ps (bitWrite bits (pixelCell c p.1 p.2.1) p.2.2)

/-- A sequence of settable SETPX writes its pixels and does nothing else. -/
theorem runInstrs_setpxs {ps : List (Nat × Nat × Bool)} {s : State} (h : ∀ p ∈ ps, settable s.cfg p.1 p.2.1 = true) :
    runInstrs (ps.map fun p => .setpx p.1 p.2.1 p.2.2) s = .next (s.withBits (writePixels s.cfg ps s.bits)) := by
  induction ps generalizing s with
  | nil => rfl
  | cons p ps ih =>
    obtain ⟨hp, hps⟩ := List.forall_mem_cons.mp h
    exact (runInstrs_setpx_cons p.2.2 hp _).trans (ih (s := s.withBits _) hps)

theorem bitRead_writePixels_of_ne {c : Config} {ps : List (Nat × Nat × Bool)} {cell : Nat} (bits : List Bool)
    (h : ∀ p ∈ ps, pixelCell c p.1 p.2.1 ≠ cell) : bitRead (writePixels c ps bits) cell = bitRead bits cell := by
  induction ps generalizing bits with
  | nil => rfl
  | cons p ps ih =>
    obtain ⟨hp, hps⟩ := List.forall_mem_cons.mp h
    exact (ih _ hps).trans (bitRead_bitWrite_ne bits p.2.2 hp)

section
variable {s : State} {x y x' y' : Nat}

theorem runInstrs_setpx_setpx (st st' : Bool) (h : settable s.cfg x y = true) (h' : settable s.cfg x' y' = true) :
    runInstrs [.setpx x y st, .setpx x' y' st'] s =
      .next (s.withBits (bitWrite (bitWrite s.bits (pixelCell s.cfg x y) st) (pixelCell s.cfg x' y') st')) :=
  runInstrs_setpxs (ps := [(x, y, st), (x', y', st')]) (by simp [h, h'])

/-- R87, law 1. -/
theorem runInstrs_setpx_rdbit (st : Bool) (hwf : Memory.wf s.cfg s.bits = true) (h : settable s.cfg x y = true) :
    ∃ t, runInstrs [.setpx x y st, .rdbit (pixelCell s.cfg x y)] s = .next t ∧ t.rdata = if st then 1#32 else 0#32 := by
  have valid : indexValid s.cfg (pixelCell s.cfg x y) = true := (indexValid_iff _ _).mpr (pixelCell_lt_nbits h)
  refine ⟨_, (runInstrs_setpx_cons st h _).trans (runInstrs_rdbit (s := s.withBits _) valid), ?_⟩
  rw [State.withRdata_rdata, State.withBits_bits, bitRead_bitWrite_pixelCell st hwf h, rdataWord_eq_ite]

/-- R87, law 2. -/
theorem runInstrs_setpx_on_off (hwf : Memory.wf s.cfg s.bits = true) (h : settable s.cfg x y = true) :
    ∃ t, runInstrs [.setpx x y true, .setpx x y false] s = .next t ∧ bitRead t.bits (pixelCell s.cfg x y) = false ∧
      ∀ j, j ≠ pixelCell s.cfg x y → bitRead t.bits j = bitRead s.bits j := by
  refine ⟨_, runInstrs_setpx_setpx true false h h, ?_⟩
  rw [State.withBits_bits, bitWrite_bitWrite]
  exact ⟨bitRead_bitWrite_pixelCell false hwf h, fun j hj => bitRead_bitWrite_ne _ _ hj.symm⟩

/-- R87, law 3. -/
theorem runInstrs_setpx_comm (st st' : Bool) (h : settable s.cfg x y = true) (h' : settable s.cfg x' y' = true)
    (hne : (x, y) ≠ (x', y')) :
    runInstrs [.setpx x y st, .setpx x' y' st'] s = runInstrs [.setpx x' y' st', .setpx x y st] s := by
  have cells : pixelCell s.cfg x y ≠ pixelCell s.cfg x' y' := pixelCell_ne_of_ne h h' (by simpa using hne)
  rw [runInstrs_setpx_setpx st st' h h', runInstrs_setpx_setpx st' st h' h, bitWrite_comm s.bits st st' cells]

/-- R87, law 4. -/
theorem runInstrs_setpx_twice (st : Bool) (h : settable s.cfg x y = true) :
    runInstrs [.setpx x y st, .setpx x y st] s = runInstrs [.setpx x y st] s := by
  rw [runInstrs_setpx_setpx st st h h, bitWrite_bitWrite, runInstrs_setpx_cons st h]
  rfl

end

/-- R87, law 5: no pixel is written to an unreached row, so its cells keep the 0 of CLEAR. -/
theorem runInstrs_clear_setpxs {ps : List (Nat × Nat × Bool)} {s : State}
    (h : ∀ p ∈ ps, settable s.cfg p.1 p.2.1 = true) :
    ∃ t, runInstrs (.clear :: ps.map fun p => .setpx p.1 p.2.1 p.2.2) s = .next t ∧
      ∀ col r : Nat, rowUnreached s.cfg.rows r = true → bitRead t.bits (r + col * s.cfg.rows) = false := by
  refine ⟨_, (runInstrs_cons (exec_clear s) _).trans (runInstrs_setpxs (s := s.withBits _) h), fun col r hr => ?_⟩
  obtain ⟨hr, hfold⟩ := rowUnreached_iff.mp hr
  have other : ∀ p ∈ ps, pixelCell s.cfg p.1 p.2.1 ≠ r + col * s.cfg.rows :=
    fun p hp => pixelCell_ne_of_fold_ne col (h p hp) hr hfold
  exact (bitRead_writePixels_of_ne _ other).trans (bitRead_zeroBits _ _)

/-- Settles O23: the laws of SETPX are those of writing a list at the cells of its pixels. -/
theorem bufferLaws : Obligations.BufferLaws := by
  unfold Obligations.BufferLaws
  intro s hwf
  refine ⟨fun x y st hx hy => ?_, fun x y hx hy => ?_, fun x y x' y' st st' hx hy hx' hy' => ?_,
    fun x y st hx hy => ?_, fun ps hps => ?_⟩
  · exact runInstrs_setpx_rdbit st hwf (settable_of_lt hx hy)
  · exact runInstrs_setpx_on_off hwf (settable_of_lt hx hy)
  · exact runInstrs_setpx_comm st st' (settable_of_lt hx hy) (settable_of_lt hx' hy')
  · exact runInstrs_setpx_twice st (settable_of_lt hx hy)
  · have ok : ∀ p ∈ ps, settable s.cfg p.1 p.2.1 = true := fun p hp => (settable_iff _ _ _).mpr (hps p hp)
    obtain ⟨t, ht, hzero⟩ := runInstrs_clear_setpxs ok
    exact ⟨t, ht, fun col r _ => hzero col r⟩

/-! ## The grid (R82, R84 to R86; 41_packet_codec.md R109) -/

theorem gridPixel_withBits_bitWrite {s : State} {x y x' y' : Nat} (st : Bool) (hwf : Memory.wf s.cfg s.bits = true)
    (h : settable s.cfg x y = true) (h' : settable s.cfg x' y' = true) :
    gridPixel (s.withBits (bitWrite s.bits (pixelCell s.cfg x y) st)) x' y' =
      if x' = x ∧ y' = y then st else gridPixel s x' y' := by
  by_cases heq : x' = x ∧ y' = y
  · rw [if_pos heq, heq.1, heq.2]
    exact bitRead_bitWrite_pixelCell st hwf h
  · rw [if_neg heq]
    exact bitRead_bitWrite_ne _ st (pixelCell_ne_of_ne h' h heq).symm

theorem exec_send_keeps_gridPixel (s : State) (x y : Nat) :
    ∃ t, exec .send s = .next t ∧ gridPixel t x y = gridPixel s x y := by
  cases h : sendCheck s.cfg with
  | none => exact ⟨_, execSend_of_ok h, rfl⟩
  | some c => exact ⟨_, execSend_of_check h, rfl⟩

theorem exec_rdbit_keeps_gridPixel (idx : Nat) (s : State) (x y : Nat) :
    ∃ t, exec (.rdbit idx) s = .next t ∧ gridPixel t x y = gridPixel s x y := by
  cases h : indexValid s.cfg idx with
  | true => exact ⟨_, execRdbit_of_valid h, rfl⟩
  | false => exact ⟨_, execRdbit_of_invalid h, rfl⟩

/-- Settles O24: two settable pixels share no cell, and only SETPX and CLEAR write the buffer. -/
theorem commandsActOnTheLogicalGrid : Obligations.CommandsActOnTheLogicalGrid := by
  unfold Obligations.CommandsActOnTheLogicalGrid
  intro s x' y' hwf hx' hy'
  have h' : settable s.cfg x' y' = true := settable_of_lt hx' hy'
  refine ⟨fun x y st hx hy => ?_, ⟨_, exec_clear s, bitRead_zeroBits _ _⟩, exec_send_keeps_gridPixel s x' y',
    fun idx => exec_rdbit_keeps_gridPixel idx s x' y'⟩
  have h : settable s.cfg x y = true := settable_of_lt hx hy
  exact ⟨_, execSetpx_of_settable st h, gridPixel_withBits_bitWrite st hwf h h'⟩

end Sys2Proof.Machine
end

section
/-! PROOFS. The packet codec (41_packet_codec.md): hex characters (R100, R101), the checksum (R104 to R107), and what a
completed SEND emits: its frame at every position, its characters, its balance, and what the frame depends on (R108 to R112). -/

namespace Sys2Proof.Machine

/-! ## Hex characters (R100, R101) -/

theorem hexDigit_toNat_of_le {d : BitVec 4} (h : d.toNat ≤ 9) : (hexDigit d).toNat = 0x30 + d.toNat := by
  have hd : d ≤ 9#4 := BitVec.le_def.mpr h
  simp [hexDigit, hd]
  omega

theorem hexDigit_toNat_of_ge {d : BitVec 4} (h : 10 ≤ d.toNat) : (hexDigit d).toNat = 0x41 + (d.toNat - 10) := by
  have hd : ¬ d ≤ 9#4 := fun hle => absurd (BitVec.le_def.mp hle) (Nat.not_le.mpr h)
  simp [hexDigit, hd]
  omega

/-- Settles O26: the two cases are the two branches of `hexDigit`. -/
theorem hexDigitsAreUppercaseAscii : Obligations.HexDigitsAreUppercaseAscii := by
  unfold Obligations.HexDigitsAreUppercaseAscii
  exact fun d => ⟨hexDigit_toNat_of_le, hexDigit_toNat_of_ge⟩

theorem highNibble_eq (v : Byte) : v.extractLsb' 4 4 = BitVec.ofNat 4 (v.toNat / 16) := by
  apply BitVec.eq_of_toNat_eq
  simp [Nat.shiftRight_eq_div_pow]

theorem lowNibble_eq (v : Byte) : v.extractLsb' 0 4 = BitVec.ofNat 4 (v.toNat % 16) := by
  apply BitVec.eq_of_toNat_eq
  simp

theorem hexEncode_eq (v : Byte) :
    hexEncode v = [hexDigit (BitVec.ofNat 4 (v.toNat / 16)), hexDigit (BitVec.ofNat 4 (v.toNat % 16))] := by
  rw [hexEncode, highNibble_eq, lowNibble_eq]

/-- Settles O27: the fields of `hexEncode` are the quotient and the remainder by 16. -/
theorem hexEncodeWritesHighNibbleFirst : Obligations.HexEncodeWritesHighNibbleFirst := by
  unfold Obligations.HexEncodeWritesHighNibbleFirst
  exact ⟨hexEncode_eq, fun v v' => hexEncode_inj, rfl, rfl, rfl⟩

/-! ## The checksum (R104 to R107) -/

theorem csumOf_accumulate_toNat (bs : List Byte) : (csumOf (accumulate bs)).toNat = (byteSum bs + 1) % 256 := by
  rw [csumOf, BitVec.toNat_add, accumulate_toNat, csumBias]
  simp

theorem finalise_accumulate_toNat (bs : List Byte) : (finalise (accumulate bs)).toNat = checksumOf bs := by
  rw [finalise, BitVec.toNat_add, BitVec.toNat_xor, csumOf_accumulate_toNat]
  rfl

theorem finalise_toNat (acc : Byte) : (finalise acc).toNat = (256 - (csumOf acc).toNat) % 256 := by
  rw [finalise_eq_neg, BitVec.toNat_neg]

theorem csumOf_add_finalise (acc : Byte) : ((csumOf acc).toNat + (finalise acc).toNat) % 256 = 0 := by
  rw [finalise_toNat]
  omega

/-- Settles O30: the XOR form of R107 is what `finalise` computes, and `finalise` negates `CSUM`. -/
theorem accumulatorComputesTheChecksumFunction : Obligations.AccumulatorComputesTheChecksumFunction := by
  unfold Obligations.AccumulatorComputesTheChecksumFunction
  intro bs
  refine ⟨accumulate_toNat bs, finalise_accumulate_toNat bs, ?_, csumOf_add_finalise _⟩
  rw [← finalise_accumulate_toNat, finalise_toNat, csumOf_accumulate_toNat]

/-! ## The layout of a frame (R108) -/

/-- The two characters of a byte of value `m`, read at their positions in a frame. -/
theorem getElem?_of_hexEncode_at {f : List Byte} {n m : Nat} {v : Byte} (h : (f.drop n).take 2 = hexEncode v)
    (hm : v.toNat = m) :
    f[n]? = some (hexDigit (BitVec.ofNat 4 (m / 16))) ∧ f[n + 1]? = some (hexDigit (BitVec.ofNat 4 (m % 16))) := by
  have char {i : Nat} (hi : i < 2) : f[n + i]? = (hexEncode v)[i]? := by
    rw [← h, List.getElem?_take_of_lt hi, List.getElem?_drop]
  rw [hexEncode_eq, hm] at char
  exact ⟨char (i := 0) (by decide), char (i := 1) (by decide)⟩

theorem flatMap_hexEncode_at {ds : List Byte} {k : Nat} {d : Byte} (h : ds[k]? = some d) (rest : List Byte) :
    ((ds.flatMap hexEncode ++ rest).drop (2 * k)).take 2 = hexEncode d := by
  induction ds generalizing k with
  | nil => simp at h
  | cons e ds ih =>
    cases k with
    | zero =>
      obtain rfl : e = d := by simpa using h
      rfl
    | succ k => exact ih (k := k) (by simpa using h)

section
variable (c : Config) (bits : List Bool)

theorem frameOf_data {k : Nat} (h : k < c.nbytes) :
    ((frameOf c bits).drop (5 + 2 * k)).take 2 = hexEncode (packByte c.packOrder bits k) := by
  rw [← List.drop_drop, frameOf, List.append_assoc]
  exact flatMap_hexEncode_at (pack_getElem? c.packOrder bits h) ([etx] ++ _)

theorem frameOf_drop_take : ((frameOf c bits).drop 1).take (4 + 2 * c.nbytes) = (frameBody c bits).drop 1 := by
  rw [← frameOf_take, List.drop_take]
  congr 1
  omega

end

/-- Settles O31: STX, the address, the length and ETX stand where `FrameWf` has them, the data and the checksum where
`frameOf_data` and `frameOf_drop` do. -/
theorem sendEmitsOneFrameInItsLayout : Obligations.SendEmitsOneFrameInItsLayout := by
  unfold Obligations.SendEmitsOneFrameInItsLayout
  intro s haddr hmul hlen
  have hok : sendCheck s.cfg = none := (sendCheck_none_iff s.cfg).mpr ⟨haddr, hmul, hlen⟩
  have wf := frameOf_wf s.bits hok
  obtain ⟨addrHi, addrLo⟩ := getElem?_of_hexEncode_at wf.address.2 (Nat.mod_eq_of_lt haddr)
  obtain ⟨lenHi, lenLo⟩ := getElem?_of_hexEncode_at wf.length_chars.2.2 (Nat.mod_eq_of_lt hlen)
  have data {k : Nat} (hk : k < s.cfg.nbytes) := getElem?_of_hexEncode_at (frameOf_data s.cfg s.bits hk) rfl
  obtain ⟨csHi, csLo⟩ := getElem?_of_hexEncode_at (congrArg (List.take 2) (frameOf_drop s.cfg s.bits))
    (finalise_accumulate_toNat _)
  rw [← frameOf_take] at csHi csLo
  rw [Nat.add_right_comm 6] at csLo
  refine ⟨_, _, execSend_of_ok hok, rfl, wf.length_eq, wf.starts, addrHi, addrLo, lenHi, lenLo,
    fun k hk => ⟨(data hk).1, ?_⟩, wf.ends, csHi, csLo, ?_, rfl, rfl, rfl, rfl, rfl, rfl, rfl, rfl⟩
  · exact (congrArg _ (Nat.add_right_comm 5 1 (2 * k))).trans (data hk).2
  · rw [State.withFrame_acc, accumulate_toNat, ← frameOf_take]
    rfl

/-! ## The characters of a frame (R111) -/

theorem getElem?_mem_drop {f : List Byte} {n p : Nat} {b : Byte} (hb : f[p]? = some b) (hp : n ≤ p) : b ∈ f.drop n := by
  refine List.mem_of_getElem? (i := p - n) ?_
  rwa [List.getElem?_drop, Nat.add_sub_cancel' hp]

/-- The byte at a position of a frame is STX, ETX or a hex character, by the position. -/
theorem frameOf_getElem?_cases {c : Config} {bits : List Bool} {p : Nat} {b : Byte}
    (h : (frameOf c bits)[p]? = some b) :
    (p = 0 ∧ b = stx) ∨ (p = 5 + 2 * c.nbytes ∧ b = etx) ∨ (p ≠ 0 ∧ p ≠ 5 + 2 * c.nbytes ∧ isHexChar b = true) := by
  rcases Nat.eq_zero_or_pos p with rfl | hpos
  · exact .inl ⟨rfl, (Option.some.inj h).symm⟩
  rcases lt_trichotomy p (5 + 2 * c.nbytes) with hlt | rfl | hgt
  · rw [← List.getElem?_take_of_lt hlt, frameOf_take] at h
    exact .inr (.inr ⟨hpos.ne', hlt.ne, frameBody_isHexChar c bits (getElem?_mem_drop h hpos)⟩)
  · rw [frameOf_etx] at h
    exact .inr (.inl ⟨rfl, (Option.some.inj h).symm⟩)
  · have hmem := getElem?_mem_drop h (show 6 + 2 * c.nbytes ≤ p by omega)
    rw [frameOf_drop] at hmem
    exact .inr (.inr ⟨hpos.ne', hgt.ne', hexEncode_isHexChar hmem⟩)

theorem stx_not_isHexChar : isHexChar stx = false := by decide

theorem etx_not_isHexChar : isHexChar etx = false := by decide

theorem ne_of_isHexChar {b m : Byte} (hb : isHexChar b = true) (hm : isHexChar m = false) : b ≠ m := by
  rintro rfl
  simp [hb] at hm

/-- A SEND that leaves the block running passed its three checks. -/
theorem send_of_running {s t : State} (h : exec .send s = .next t) (ht : halted t = false) :
    sendCheck s.cfg = none ∧ t = s.withFrame (accumulate (frameBody s.cfg s.bits)) (frameOf s.cfg s.bits) := by
  cases hc : sendCheck s.cfg with
  | none =>
    cases (execSend_of_ok hc).symm.trans h
    exact ⟨rfl, rfl⟩
  | some c =>
    cases (execSend_of_check hc).symm.trans h
    simp at ht

/-- Settles O33: each of the three kinds of byte excludes the other two. -/
theorem framesHaveTheirLengthAndCharacters : Obligations.FramesHaveTheirLengthAndCharacters := by
  unfold Obligations.FramesHaveTheirLengthAndCharacters
  refine ⟨fun s t h ht => ?_, rfl⟩
  obtain ⟨-, rfl⟩ := send_of_running h ht
  refine ⟨_, rfl, frameOf_length s.cfg s.bits, fun p b hb => ?_⟩
  obtain ⟨rfl, rfl⟩ | ⟨rfl, rfl⟩ | ⟨h0, hE, hx⟩ := frameOf_getElem?_cases hb
  · exact ⟨fun h => absurd rfl h, iff_of_true rfl rfl, iff_of_false (by decide) (by omega)⟩
  · exact ⟨fun _ h => absurd rfl h, iff_of_false (by decide) (by omega), iff_of_true rfl rfl⟩
  · exact ⟨fun _ _ => hx, iff_of_false (ne_of_isHexChar hx stx_not_isHexChar) h0,
      iff_of_false (ne_of_isHexChar hx etx_not_isHexChar) hE⟩

/-! ## The checksum law (R110) -/

theorem byteSum_frameBody (c : Config) (bits : List Bool) :
    byteSum (frameBody c bits) = 2 + byteSum ((frameBody c bits).drop 1) := rfl

/-- Settles O34: leaving out STX and counting ETX exchanges 2 for 3, which is the bias of 1. -/
theorem everyFrameBalancesItsChecksum : Obligations.EveryFrameBalancesItsChecksum := by
  unfold Obligations.EveryFrameBalancesItsChecksum
  intro s t h ht
  obtain ⟨-, rfl⟩ := send_of_running h ht
  refine ⟨_, _, rfl, frameOf_drop s.cfg s.bits, ?_⟩
  rw [frameOf_drop_take, frameOf_take]
  have balance := byteSum_add_finalise (frameBody s.cfg s.bits)
  have stxApart := byteSum_frameBody s.cfg s.bits
  omega

/-! ## What a frame depends on (R112) -/

theorem State.withFrame_writes (s : State) (a : Byte) (f : List Byte) :
    s.withFrame a f = { s with acc := (s.withFrame a f).acc, frames := s.frames ++ [f] } := rfl

/-- Settles O35: the three checks read the configuration alone, and the frame and `ACC` are functions of it and the cells. -/
theorem frameDependsOnConfigurationAndBufferOnly : Obligations.FrameDependsOnConfigurationAndBufferOnly := by
  unfold Obligations.FrameDependsOnConfigurationAndBufferOnly
  intro s s' t t' hcfg hbits hs hs' h h'
  cases hc : sendCheck s.cfg with
  | none =>
    cases (execSend_of_ok hc).symm.trans h
    cases (execSend_of_ok (hcfg ▸ hc)).symm.trans h'
    refine ⟨hs.trans hs'.symm, fun _ => ⟨_, rfl, ?_, s.withFrame_writes _ _, ?_⟩⟩
    · rw [State.withFrame_frames, hcfg, hbits]
    · rw [State.withFrame_acc, State.withFrame_acc, hcfg, hbits]
  | some c =>
    cases (execSend_of_check hc).symm.trans h
    cases (execSend_of_check (hcfg ▸ hc)).symm.trans h'
    simp

end Sys2Proof.Machine
end

section
/-! PROOFS. Faults (60_exceptions.md): what each cause writes (R131, R139), when each command raises its own (R133 to R138),
and that a fault changes nothing else and lasts until reset (R140 to R142). -/

namespace Sys2Proof.Machine

/-! ## Commands that fault (R133 to R138) -/

/-- Settles O10: each of the shapes a command's outcome has is a next state, fault entry too. -/
theorem everyCommandEndsInANextState : Obligations.EveryCommandEndsInANextState := by
  unfold Obligations.EveryCommandEndsInANextState
  intro i s
  obtain ⟨c, e⟩ | ⟨x, y, st, -, -, e⟩ | ⟨-, e⟩ | ⟨idx, -, -, e⟩ | ⟨-, -, e⟩ := exec_shapes i s <;> exact ⟨_, e⟩

theorem settable_eq_false_iff {c : Config} {x y : Nat} :
    settable c x y = false ↔ ¬ (x < c.columns ∧ y + 2 < c.rows) := by
  rw [← settable_iff, Bool.not_eq_true]

theorem indexValid_eq_false_iff {c : Config} {idx : Nat} : indexValid c idx = false ↔ c.nbits ≤ idx := by
  rw [← Nat.not_lt, ← indexValid_iff, Bool.not_eq_true]

/-- R138: SEND's check finds the first condition that fails, which is the cause R131 gives a faulting SEND. -/
theorem sendCheck_eq_causeRaised {c : Config} (h : sendCheck c ≠ none) : sendCheck c = causeRaised c (.ok .send) := by
  simp only [sendCheck, addrOffset, byteLimit, bitsPerByte, causeRaised, Nat.not_lt] at h ⊢
  split_ifs at h ⊢
  · rfl
  · rfl
  · rfl
  · exact absurd rfl h

/-- Settles O19, from the faulting side of SETPX. -/
theorem setpxOutsideTheGridFaults : Obligations.SetpxOutsideTheGridFaults := by
  unfold Obligations.SetpxOutsideTheGridFaults
  intro s x y st h
  exact ⟨_, execSetpx_of_not_settable st (settable_eq_false_iff.mpr h),
    rfl, rfl, rfl, rfl, rfl, rfl, rfl, rfl, rfl, rfl⟩

/-- Settles O22, from the faulting side of RDBIT. -/
theorem rdbitOfAnInvalidIndexFaults : Obligations.RdbitOfAnInvalidIndexFaults := by
  unfold Obligations.RdbitOfAnInvalidIndexFaults
  intro s idx h
  exact ⟨_, execRdbit_of_invalid (indexValid_eq_false_iff.mpr h),
    rfl, rfl, rfl, rfl, rfl, rfl, rfl, rfl, rfl, rfl⟩

/-- Settles O32: a SEND that fails its checks takes the first cause in their order. -/
theorem sendFaultsInItsOrder : Obligations.SendFaultsInItsOrder := by
  unfold Obligations.SendFaultsInItsOrder
  intro s h
  have failed : sendCheck s.cfg ≠ none := mt (sendCheck_none_iff s.cfg).mp h
  refine ⟨_, execSend_of_check (sendCheck_eq_causeRaised failed), ?_, rfl, rfl, rfl, rfl, rfl, rfl, rfl, rfl, rfl⟩
  rw [State.withFault_status]
  split_ifs <;> rfl

/-! ## Fault entry (R139, R140) -/

theorem statusWord_true_eq (code : BitVec 4) : statusWord true code = (code.setWidth 32 <<< 4) ||| 1#32 := by
  revert code
  decide

/-- A command of a running block that ends halted has entered the fault of R131's cause, and done nothing else. -/
theorem exec_faulted {i : Instr} {s t : State} (hrun : halted s = false) (h : exec i s = .next t)
    (ht : halted t = true) : ∃ c, causeRaised s.cfg (.ok i) = some c ∧ t = s.withFault c (encode i) := by
  have completed {u : State} (hu : exec i s = .next u) (hkeep : u.status = s.status) : False := by
    cases hu.symm.trans h
    rw [halted, hkeep] at ht
    exact Bool.false_ne_true (hrun.symm.trans ht)
  cases i with
  | setpx x y st =>
    cases hset : settable s.cfg x y with
    | true => exact (completed (execSetpx_of_settable st hset) rfl).elim
    | false =>
      cases (execSetpx_of_not_settable st hset).symm.trans h
      exact ⟨_, rfl, rfl⟩
  | clear => exact (completed (exec_clear s) rfl).elim
  | send =>
    cases hc : sendCheck s.cfg with
    | none => exact (completed (execSend_of_ok hc) rfl).elim
    | some c =>
      cases (execSend_of_check hc).symm.trans h
      exact ⟨c, (sendCheck_eq_causeRaised (by simp [hc])).symm.trans hc, rfl⟩
  | rdbit idx =>
    cases hidx : indexValid s.cfg idx with
    | true => exact (completed (execRdbit_of_valid hidx) rfl).elim
    | false =>
      cases (execRdbit_of_invalid hidx).symm.trans h
      exact ⟨_, rfl, rfl⟩

/-- The word recorded is the one the host wrote: a legal word is the encoding of its command. -/
theorem step_faulted {s t : State} {w : Word} {rest : List HostEvent} (hin : s.inputs = .command w :: rest)
    (hrun : halted s = false) (h : step s = .next t) (ht : halted t = true) :
    ∃ c, causeRaised s.cfg (decode w) = some c ∧ t = (s.withInputs rest).withFault c w := by
  cases hd : decode w with
  | ok i =>
    have faulted := exec_faulted (s := s.withInputs rest) hrun ((step_of_command hin hrun hd).symm.trans h) ht
    rwa [encode_eq_of_decode hd] at faulted
  | error e =>
    cases (step_of_illegal hin hrun hd).symm.trans h
    exact ⟨_, rfl, rfl⟩

/-- Settles O37, from the fault that the step entered. -/
theorem faultEntryRecordsCauseAndWord : Obligations.FaultEntryRecordsCauseAndWord := by
  unfold Obligations.FaultEntryRecordsCauseAndWord
  intro s t w rest hin hrun h ht
  obtain ⟨c, hc, rfl⟩ := step_faulted hin hrun h ht
  exact ⟨rfl, ht, c, hc, statusWord_true_eq c.code⟩

/-- Settles O38: fault entry is the step's only write. -/
theorem faultsArePrecise : Obligations.FaultsArePrecise := by
  unfold Obligations.FaultsArePrecise
  intro s t w rest hin hrun h ht
  obtain ⟨c, -, rfl⟩ := step_faulted hin hrun h ht
  rfl

/-! ## The halted block (R141, R142) -/

theorem halted_resetNow (s : State) : halted s.resetNow = false := by
  simp [halted, statusFault]

theorem acceptCommand_halted {s : State} (w : Word) (h : halted s = true) : acceptCommand w s = .fault .halted := by
  rw [acceptCommand, if_pos h]

/-- Settles O12: the command port refuses, the read port answers as it always does, and reset leaves the block running. -/
theorem haltedBlockAcceptsNoCommand : Obligations.HaltedBlockAcceptsNoCommand := by
  unfold Obligations.HaltedBlockAcceptsNoCommand
  intro s hs
  refine ⟨fun w rest hin => ?_, fun n rest hin hn => ?_, fun a rest hin => ?_, hs⟩
  · exact (step_of_event hin).trans (acceptCommand_halted (s := s.withInputs rest) w hs)
  · obtain ⟨t, ht, hreplies, -⟩ := (readPortAnswersThreeRegisters s n rest hin).1 hn
    exact ⟨t, ht, by rw [hreplies, List.length_append, List.length_singleton]⟩
  · exact ⟨_, step_of_event hin, halted_resetNow (s.withInputs rest)⟩

/-- Settles O39: idle steps and reads keep `STATUS` and `FCMD`, and a command has no step. -/
theorem onlyResetLeavesAFault : Obligations.OnlyResetLeavesAFault := by
  unfold Obligations.OnlyResetLeavesAFault
  intro s t hs h
  obtain ⟨-, rfl⟩ | ⟨w, rest, -, hrun, -⟩ | ⟨n, rest, v, -, -, rfl⟩ | ⟨a, rest, hin, rfl⟩ := step_cases h
  · exact .inl ⟨rfl, rfl⟩
  · exact absurd (hrun.symm.trans hs) Bool.false_ne_true
  · exact .inl ⟨rfl, rfl⟩
  · exact .inr ⟨a, rest, hin, halted_resetNow _⟩

end Sys2Proof.Machine
end

section
/-! PROOFS. Reset and runs (70_reset_and_hazards.md): what reset and power-on leave (R150 to R153), and that one CLEAR makes
a run independent of what they left unspecified (R154). -/

namespace Sys2Proof.Machine

/-! ## CLEAR at the start of a run (R154) -/

/-- CLEAR overwrites the whole buffer, and a halted block refuses it whatever the buffer holds. -/
theorem acceptCommand_clear_withBits (s : State) (b : List Bool) :
    acceptCommand 0x20000000#32 (s.withBits b) = acceptCommand 0x20000000#32 s := by
  have hd : decode 0x20000000#32 = .ok .clear := decode_encode (i := .clear) rfl
  cases hrun : halted s with
  | true => rw [acceptCommand_halted _ hrun, acceptCommand_halted (s := s.withBits b) _ hrun]
  | false =>
    rw [acceptCommand_of_decode hrun hd, acceptCommand_of_decode (s := s.withBits b) hrun hd]
    rfl

theorem runCommands_clear_withBits (ws : List Word) (s : State) (b : List Bool) :
    runCommands (0x20000000#32 :: ws) (s.withBits b) = runCommands (0x20000000#32 :: ws) s := by
  simp only [runCommands, acceptCommand_clear_withBits]

/-- Settles O46: CLEAR leaves nothing of the buffer before it, and `ACC` is never observed. -/
theorem clearMakesTheRunIndependentOfTheDraw : Obligations.ClearMakesTheRunIndependentOfTheDraw := by
  unfold Obligations.ClearMakesTheRunIndependentOfTheDraw
  intro s bits acc ws
  rw [← runCommands_clear_withBits ws s bits]
  exact observeOutcome_runCommands_withAcc (0x20000000#32 :: ws) (s.withBits bits) acc

/-! ## Reset and power-on (R150 to R153) -/

theorem step_of_reset {s : State} {a : Option Word} {rest : List HostEvent} (h : s.inputs = .reset a :: rest) :
    step s = .next (s.withInputs rest).resetNow := step_of_event h

/-- Settles O13: the state after reset is that of `resetNow`, which takes no word, so it is the same for every command
abandoned. -/
theorem resetSetsTheRegistersAndAbandonsTheCommand : Obligations.ResetSetsTheRegistersAndAbandonsTheCommand := by
  unfold Obligations.ResetSetsTheRegistersAndAbandonsTheCommand
  intro s a rest hin
  have length : (s.withInputs rest).resetNow.bits.length = s.cfg.nbits := freeBuffer_length s.cfg s.draws
  exact ⟨_, step_of_reset hin, rfl, rfl, rfl, rfl, length, rfl, rfl,
    fun b => step_of_reset (s := s.withInputs (.reset b :: rest)) rfl⟩

theorem halted_powerOn (c : Config) : halted (State.powerOn c) = false := by
  simp [halted, statusFault, State.powerOn]

/-- R153: a running block takes any command word, a legal one or not. -/
theorem step_command_of_running {s : State} (w : Word) (rest : List HostEvent) (hrun : halted s = false) :
    ∃ t, step (s.withInputs (.command w :: rest)) = .next t := by
  obtain ⟨t, ht⟩ := acceptCommand_withInputs w hrun
  exact ⟨t.withInputs rest, (step_of_event (e := .command w) (rest := rest) rfl).trans (ht rest)⟩

/-- Settles O14: power-on leaves `STATUS` zero, so the block runs and takes a command. -/
theorem powerOnIsARunningBlock : Obligations.PowerOnIsARunningBlock := by
  unfold Obligations.PowerOnIsARunningBlock
  exact ⟨fun c => ⟨rfl, rfl, rfl, rfl, halted_powerOn c, rfl,
    fun w => step_command_of_running w [] (halted_powerOn c)⟩, rfl⟩

end Sys2Proof.Machine
end
